-- ==== Sys2Proof/Word.lean ====
section
/-! DEFINITION. The word types of the grobot message framer (00_scope.md R10, 30_encoding.md R70). -/

namespace Sys2Proof

/-- One byte: a byte of the input channel or of a buffer, or an 8-bit register (R10). -/
abbrev Byte := BitVec 8

/-- The control word sampled at a rising edge: rst, init, in_valid, in_byte (R70). -/
abbrev ControlWord := BitVec 11

end Sys2Proof
end

