-- ==== Sys2Proof/Config.lean ====
section
/-! DEFINITION. The elaboration-time parameters of the GMF (00_scope.md R7 to R13). -/

namespace Sys2Proof

/-- The implementation parameters. They are constants of one piece of hardware (R30, R63, R228);
`WellFormed.lean` says which values the spec admits (R11, R12). -/
structure Config where
  /-- `COMMAND_LENGTH`, the capacity of the command buffer in bytes (R7). -/
  commandLength : Nat
  /-- `FIELD_LENGTH`, the capacity of each payload field in bytes (R8). -/
  fieldLength : Nat
  /-- `NUM_FIELDS`, the number of payload field slots (R9). -/
  numFields : Nat
  /-- `START_BYTE` (R12). -/
  startByte : Byte
  /-- `SEP_BYTE` (R12). -/
  sepByte : Byte
  /-- `END_BYTE` (R12). -/
  endByte : Byte
  /-- `RESYNC_MID_FRAME`: a START_BYTE in the middle of a frame restarts it (R13). -/
  resyncMidFrame : Bool
  deriving DecidableEq, Repr

/-- The reference configuration: the default capacities (R7, R8, R9), the vectors' markers (R12) and
RESYNC_MID_FRAME = 0 (R13). DESIGN CHOICE as a power-on value of `State.cfg`, unsafe for a claim that
names it: the markers and RESYNC_MID_FRAME are OPEN (log 1), and 8, 32, 3 are UNVERIFIED (log 2). -/
def Config.reference : Config where
  commandLength := 8
  fieldLength := 32
  numFields := 3
  startByte := 0x3C#8
  sepByte := 0x7C#8
  endByte := 0x3E#8
  resyncMidFrame := false

end Sys2Proof
end

