-- ==== Sys2Proof/Syntax.lean ====
section
/-! DEFINITION. The operations of the GMF (one constructor per row of spec/opcode_table.json), the byte
classes of R73, and the forms in which the host presents an operation (30_encoding.md). -/

namespace Sys2Proof

/-- The four values of the byte class function `cls` (R73). -/
inductive ByteClass where
  | start
  | sep
  | fin
  | content
  deriving DecidableEq, Repr

/-- The output ports that have no select: the PORT rows of the opcode table (R76). -/
inductive Port where
  | command
  | source
  | dest
  | status
  deriving DecidableEq, Repr

/-- What the host presents next, not decoded yet: one line of a host program (R79). -/
inductive Stimulus where
  /-- One rising edge of `clk` with this control word (format CYCLE, R70). -/
  | edge (w : ControlWord)
  /-- The host looks at the `read_field` port with this `rd_sel`; no edge (format READ, R76). -/
  | read (sel : Byte)
  /-- The host looks at a port that is always driven; no edge (format PORT, R76). -/
  | port (p : Port)
  deriving DecidableEq, Repr

/-- The operations of the GMF: one constructor per row of spec/opcode_table.json. Bits that a row
ignores (R71) are no operand. -/
inductive Instr where
  /-- RESET (R220). -/
  | reset
  /-- INIT, the `message_init` operation (R100). -/
  | init
  /-- IDLE (R101). -/
  | idle
  /-- PB_START, the consumed byte START_BYTE (R125). -/
  | pbStart
  /-- PB_SEP, the consumed byte SEP_BYTE (R126). -/
  | pbSep
  /-- PB_END, the consumed byte END_BYTE (R127). -/
  | pbEnd
  /-- PB_DIGIT, a consumed content byte `b` in 0x30 to 0x39 (R128). -/
  | pbDigit (b : Byte)
  /-- PB_OTHER, a consumed content byte `b` that is no digit (R129). -/
  | pbOther (b : Byte)
  /-- RD_FIELD, the field port with an index `sel` in range (R160). -/
  | rdField (sel : Byte)
  /-- RD_FIELD_OOR, the field port with an index `sel` out of range (R161). -/
  | rdFieldOor (sel : Byte)
  /-- RD_COMMAND, the command port (R162). -/
  | rdCommand
  /-- RD_SOURCE, the source-address port (R163). -/
  | rdSource
  /-- RD_DEST, the destination-address port (R164). -/
  | rdDest
  /-- RD_STATUS, the status ports (R165). -/
  | rdStatus
  deriving DecidableEq, Repr

end Sys2Proof
end

