-- ==== Sys2Proof/Machine/State.lean ====
section
/-! DEFINITION. The state of the GMF (10_state.md R20 to R35) as plain data, what can stop a step, and the
state after reset (R34). -/

namespace Sys2Proof.Machine

/-- A byte space (R50): (index, byte) pairs with indices strictly rising and no entry equal to what an
unlisted index reads as, 0x00 (`Memory.blank`, `Memory.wf`; log 7). -/
abbrev Memory := List Host.Cell

/-- The six states of `s.parser_state` by name (R21). The register itself is the 3-bit
`Message.parserState`; `ParserState.code` and `ParserState.ofCode` relate the two. -/
inductive ParserState where
  | readingStart
  | readingCommand
  | readingSource
  | readingDest
  | readingField
  | done
  deriving DecidableEq, Repr

/-- The state elements of the GMF, "exactly these elements and no others" (R20). -/
structure Message where
  /-- `s.parser_state`, 3 bits (R21). Codes 6 and 7 are no state of a started GMF (R22). -/
  parserState : BitVec 3
  /-- `s.command`, COMMAND_LENGTH bytes (R23). -/
  command : Memory
  /-- `s.source`, 8 bits (R24). -/
  source : Byte
  /-- `s.dest`, 8 bits (R25). -/
  dest : Byte
  /-- `s.fields`, NUM_FIELDS slots of FIELD_LENGTH bytes, slot 0 first (R26). -/
  fields : List Memory
  /-- `s.write_counter`, 8 bits (R27). -/
  writeCounter : Byte
  /-- `s.write_field`, 8 bits (R28). -/
  writeField : Byte
  deriving DecidableEq, Repr

/-- What the output signals of one read operation show (R160 to R165). A flat bus is the list of its
byte lanes, lane 0 (bits 7..0) first (R54); `busValue` is the number on it. -/
inductive Observation where
  /-- `rd_err`, `rd_len`, `rd_data`. -/
  | field (rdErr : Bool) (rdLen : Byte) (rdData : List Byte)
  /-- `cmd_len`, `cmd_data`. -/
  | command (cmdLen : Byte) (cmdData : List Byte)
  /-- `source_o`. -/
  | source (sourceO : Byte)
  /-- `dest_o`. -/
  | dest (destO : Byte)
  /-- `complete`, `state_o`, `wc_o`, `wf_o`. -/
  | status (complete : Bool) (stateO : BitVec 3) (wcO wfO : Byte)
  deriving DecidableEq, Repr

/-- The machine. `record` is the spec's state; `cfg`, `pending` and `observed` are the model's own
fields (logs 1, 3, 4). -/
structure State where
  /-- The parameters this piece of hardware was elaborated with. No step changes them (R30, R228). -/
  cfg : Config
  /-- The message record, or `none` in the power-up state, which holds no value (R35, log 5). -/
  record : Option Message
  /-- What the host will present, the earliest first (R31, R79, log 3). -/
  pending : List Stimulus
  /-- What the host's latest read operation showed; `none` before the first (log 4). -/
  observed : Option Observation
  deriving DecidableEq, Repr

/-- Why a step stops with a fault. -/
inductive Fault where
  /-- Raised by a byte or a read operation in the power-up state, where the state has no value (R35,
  R221). Safe: the model stops where the hardware would act on unspecified values. -/
  | noValue
  /-- Raised by every operation but RESET and INIT when `s.parser_state` holds 6 or 7 (R22). Safe. -/
  | illegalParserState
  /-- Raised by an access to a field slot that is not there. No reachable state makes one (R28, R123).
  Safe. -/
  | noSuchSlot
  deriving DecidableEq, Repr

/-- Why a step is refused. -/
inductive Refusal where
  /-- An arm of `exec` without a meaning; no arm raises it. Safe. -/
  | notModelled (mnemonic : String)
  /-- Raised by `step` before any word is decoded when the configuration is ill-formed (R72, R204).
  Safe: the spec does not define the GMF for it. -/
  | illFormedConfig
  deriving DecidableEq, Repr

/-- The record that RESET and INIT leave (R34): READING_START, every counter and register 0, every byte
of every space 0x00 (a space with nothing listed). -/
def Message.fresh (cfg : Config) : Message where
  parserState := 0#3
  command := []
  source := 0x00#8
  dest := 0x00#8
  fields := List.replicate cfg.numFields []
  writeCounter := 0x00#8
  writeField := 0x00#8

/-- Hardware elaborated with `cfg` and just powered up: the record has no value (R35, R228). -/
def State.powerUp (cfg : Config) : State where
  cfg := cfg
  record := none
  pending := []
  observed := none

/-- The machine right after RESET (R34, R220), with the reference configuration (log 1), nothing
presented by the host (log 3) and nothing read yet (log 4). -/
def State.reset : State where
  cfg := Config.reference
  record := some (Message.fresh Config.reference)
  pending := []
  observed := none

end Sys2Proof.Machine
end

