-- ==== Sys2Proof/Machine/Operands.lean ====
section
/-! DEFINITION. The operand forms: byte classes and digits (30_encoding.md R73, R75), the codes of
`s.parser_state` (10_state.md R21), and the text and bus forms of a byte space (20_memory.md R53, R54). -/

namespace Sys2Proof.Machine

/-- `cls(b)` (R73). It depends on the byte and the configuration only (R74). -/
def cls (cfg : Config) (b : Byte) : ByteClass :=
  if b = cfg.startByte then .start
  else if b = cfg.sepByte then .sep
  else if b = cfg.endByte then .fin
  else .content

/-- `is_digit(b)`: `0x30 <= b <= 0x39` (R75). -/
def isDigit (b : Byte) : Bool := decide (0x30 ≤ b.toNat ∧ b.toNat ≤ 0x39)

/-- The digit value `b - 0x30` of a digit byte (R75). -/
def digitValue (b : Byte) : Nat := b.toNat - 0x30

/-- The 3-bit code of a parser state (R21). -/
def ParserState.code : ParserState → BitVec 3
  | .readingStart => 0#3
  | .readingCommand => 1#3
  | .readingSource => 2#3
  | .readingDest => 3#3
  | .readingField => 4#3
  | .done => 5#3

/-- The parser state a code stands for; codes 6 and 7 stand for none (R21, R22). -/
def ParserState.ofCode (c : BitVec 3) : Option ParserState :=
  match c.toNat with
  | 0 => some .readingStart
  | 1 => some .readingCommand
  | 2 => some .readingSource
  | 3 => some .readingDest
  | 4 => some .readingField
  | 5 => some .done
  | _ => none

/-- What an unlisted index of a byte space reads as: the 0x00 that RESET, INIT and RESTART leave in
every byte (R34, R51). -/
def Memory.blank : Byte := 0x00#8

/-- `MemRead(buf, i, 1)`: byte `i` of a byte space. -/
def Memory.read : Memory → Nat → Byte
  | [], _ => Memory.blank
  | (k, v) :: rest, i => if i = k then v else Memory.read rest i

/-- The bytes of a space of capacity `cap` in index order, as its flat output bus shows them: entry `i`
is lane `i`, bits `8i+7..8i` (R54). -/
def spaceBytes (buf : Memory) (cap : Nat) : List Byte := (List.range cap).map (Memory.read buf)

/-- `tlen(buf, cap)`: the least index below `cap` that holds 0x00, or `cap` (R53). -/
def textLength (buf : Memory) (cap : Nat) : Nat := (spaceBytes buf cap).findIdx (· == 0x00#8)

/-- The text value of a byte space: its bytes before index `tlen` (R53). -/
def textValue (buf : Memory) (cap : Nat) : List Byte := (spaceBytes buf cap).take (textLength buf cap)

/-- A text length as the 8-bit output `cmd_len` or `rd_len` shows it. No capacity exceeds 255 (R11), so
nothing is lost. -/
def textLengthOut (buf : Memory) (cap : Nat) : Byte := BitVec.ofNat 8 (textLength buf cap)

/-- The number on a flat bus whose byte lanes are the list, lane 0 the least significant (R54). -/
def busValue : List Byte → Nat
  | [] => 0
  | b :: rest => b.toNat + 256 * busValue rest

end Sys2Proof.Machine
end

