-- ==== Sys2Proof/WellFormed.lean ====
section
/-! DEFINITION. Which configurations the spec admits (00_scope.md R11, R12), and which operations a control
word or a select can stand for in a configuration (30_encoding.md R71, R76). -/

namespace Sys2Proof

/-- The bounds on the capacities (R11). -/
def Config.sizesOk (cfg : Config) : Bool :=
  decide (1 ≤ cfg.commandLength ∧ cfg.commandLength ≤ 255 ∧ 1 ≤ cfg.fieldLength ∧ cfg.fieldLength ≤ 255 ∧
    1 ≤ cfg.numFields ∧ cfg.numFields ≤ 256)

/-- The three markers are pairwise distinct (R12). -/
def Config.markersDistinct (cfg : Config) : Bool :=
  decide (cfg.startByte ≠ cfg.sepByte ∧ cfg.startByte ≠ cfg.endByte ∧ cfg.sepByte ≠ cfg.endByte)

/-- No marker is a decimal digit byte (R12). -/
def Config.markersNotDigits (cfg : Config) : Bool :=
  !Machine.isDigit cfg.startByte && !Machine.isDigit cfg.sepByte && !Machine.isDigit cfg.endByte

/-- A configuration the GMF is defined for (R11, R12, R204). -/
def Config.wf (cfg : Config) : Bool := cfg.sizesOk && cfg.markersDistinct && cfg.markersNotDigits

/-- An operation whose operand lies in the range its row of the opcode table gives (R71, R76). -/
def Instr.wf (cfg : Config) : Instr → Bool
  | .pbDigit b => Machine.cls cfg b == .content && Machine.isDigit b
  | .pbOther b => Machine.cls cfg b == .content && !Machine.isDigit b
  | .rdField sel => decide (sel.toNat < cfg.numFields)
  | .rdFieldOor sel => decide (cfg.numFields ≤ sel.toNat)
  | .reset | .init | .idle | .pbStart | .pbSep | .pbEnd => true
  | .rdCommand | .rdSource | .rdDest | .rdStatus => true

end Sys2Proof
end

