-- ==== Sys2Proof/Decode.lean ====
section
/-! DEFINITION. The decoder (30_encoding.md R70 to R76), the encoder written from the same tables, and the rows of
spec/opcode_table.json as match, mask, priority and condition. -/

namespace Sys2Proof

/-- `rst`, bit 10 of the control word (R70). -/
def ctrlRst (w : ControlWord) : Bool := w.getLsbD 10

/-- `init`, bit 9 of the control word (R70). -/
def ctrlInit (w : ControlWord) : Bool := w.getLsbD 9

/-- `in_valid`, bit 8 of the control word (R70). -/
def ctrlValid (w : ControlWord) : Bool := w.getLsbD 8

/-- `in_byte`, bits 7..0 of the control word (R70). -/
def ctrlByte (w : ControlWord) : Byte := w.extractLsb' 0 8

/-- The operation of a consumed byte: chosen by `cls(b)` and `is_digit(b)` (R71, R103). -/
def decodeByte (cfg : Config) (b : Byte) : Instr :=
  match Machine.cls cfg b with
  | .start => .pbStart
  | .sep => .pbSep
  | .fin => .pbEnd
  | .content => if Machine.isDigit b then .pbDigit b else .pbOther b

/-- Format CYCLE: RESET before INIT before IDLE before a consumed byte (R71). Every word selects exactly
one operation (R72). -/
def decodeWord (cfg : Config) (w : ControlWord) : Instr :=
  if ctrlRst w then .reset
  else if ctrlInit w then .init
  else if !ctrlValid w then .idle
  else decodeByte cfg (ctrlByte w)

/-- Format READ (R76). -/
def decodeSelect (cfg : Config) (sel : Byte) : Instr :=
  if sel.toNat < cfg.numFields then .rdField sel else .rdFieldOor sel

/-- The ports without a select (R76). -/
def decodePort : Port → Instr
  | .command => .rdCommand
  | .source => .rdSource
  | .dest => .rdDest
  | .status => .rdStatus

/-- Why the decoder rejects what the host presents. -/
inductive DecodeError where
  /-- The configuration is ill-formed: it is refused as a whole, before any word is decoded (R72, R204). -/
  | illFormedConfig
  deriving DecidableEq, Repr

/-- The decoder: total, and with a well-formed configuration it rejects nothing (R72). -/
def decode (cfg : Config) (x : Stimulus) : Except DecodeError Instr :=
  if cfg.wf then
    match x with
    | .edge w => .ok (decodeWord cfg w)
    | .read sel => .ok (decodeSelect cfg sel)
    | .port p => .ok (decodePort p)
  else .error .illFormedConfig

/-- The control word `0x100 | b` of a consumed byte (R79). -/
def byteWord (b : Byte) : ControlWord := 0x100#11 ||| b.setWidth 11

/-- The encoder: what the host presents to ask for an operation, every ignored bit 0 (R71, R76, R79). -/
def encode (cfg : Config) : Instr → Stimulus
  | .reset => .edge 0x400#11
  | .init => .edge 0x200#11
  | .idle => .edge 0x000#11
  | .pbStart => .edge (byteWord cfg.startByte)
  | .pbSep => .edge (byteWord cfg.sepByte)
  | .pbEnd => .edge (byteWord cfg.endByte)
  | .pbDigit b => .edge (byteWord b)
  | .pbOther b => .edge (byteWord b)
  | .rdField sel => .read sel
  | .rdFieldOor sel => .read sel
  | .rdCommand => .port .command
  | .rdSource => .port .source
  | .rdDest => .port .dest
  | .rdStatus => .port .status

/-- The `match` column of the opcode table's CYCLE rows, `match_general` for the markers. -/
def rowMatch (cfg : Config) : Instr → Option ControlWord
  | .reset => some 0x400#11
  | .init => some 0x200#11
  | .idle => some 0x000#11
  | .pbStart => some (0x100#11 ||| cfg.startByte.setWidth 11)
  | .pbSep => some (0x100#11 ||| cfg.sepByte.setWidth 11)
  | .pbEnd => some (0x100#11 ||| cfg.endByte.setWidth 11)
  | .pbDigit _ => some 0x130#11
  | .pbOther _ => some 0x100#11
  | .rdField _ | .rdFieldOor _ | .rdCommand | .rdSource | .rdDest | .rdStatus => none

/-- The `mask` column of the opcode table's CYCLE rows. -/
def rowMask : Instr → ControlWord
  | .reset => 0x400#11
  | .init => 0x600#11
  | .idle => 0x700#11
  | .pbStart | .pbSep | .pbEnd => 0x7FF#11
  | .pbDigit _ => 0x7F0#11
  | .pbOther _ => 0x700#11
  | .rdField _ | .rdFieldOor _ | .rdCommand | .rdSource | .rdDest | .rdStatus => 0x000#11

/-- The `priority` column of the opcode table, 1 taken first; the PORT rows give none. -/
def rowPriority : Instr → Option Nat
  | .reset => some 1
  | .init => some 2
  | .idle => some 3
  | .pbStart | .pbSep | .pbEnd => some 4
  | .pbDigit _ => some 5
  | .pbOther _ => some 6
  | .rdField _ | .rdFieldOor _ => some 1
  | .rdCommand | .rdSource | .rdDest | .rdStatus => none

/-- The row of operation `i` matches control word `w`: `(w & mask) == match` and the row's `condition`
on the bits the mask leaves open (opcode_table.json), where `i` carries the word's byte as its operand.
That PB_OTHER is taken only when no row of priority 4 or 5 matches is its priority, not its condition. -/
def rowMatches (cfg : Config) (i : Instr) (w : ControlWord) : Bool :=
  (match rowMatch cfg i with
    | some m => w &&& rowMask i == m
    | none => false) &&
  (match i with
    | .pbDigit b => decide ((w.extractLsb' 0 4).toNat ≤ 9) && ctrlByte w == b
    | .pbOther b => ctrlByte w == b
    | _ => true)

/-- What the host presents for the `w` of a table row with `nbits` bits: 8 bits are the select of format
READ; 9 to 16 bits are a control word, whose bits above 10 do not exist and must be 0. -/
def stimulusOfTable (nbits w : Nat) : Option Stimulus :=
  if nbits = 8 then
    if w < 256 then some (.read (BitVec.ofNat 8 w)) else none
  else if 9 ≤ nbits ∧ nbits ≤ 16 then
    if w < 2048 then some (.edge (BitVec.ofNat 11 w)) else none
  else none

/-- The operation the decoder reads from a table row's bits, in the reference configuration, whose markers
the table's `match` column has. -/
def decodeTableWord (nbits w : Nat) : Option Instr :=
  match stimulusOfTable nbits w with
  | none => none
  | some x =>
    match decode Config.reference x with
    | .ok i => some i
    | .error _ => none

end Sys2Proof
end

