-- ==== Sys2Proof/Machine/Flags.lean ====
section
/-! DEFINITION. The status signals: `complete` (10_state.md R33), `rd_err` (42_readout.md R161) and `in_ready`
(40_control.md R102). None is state. -/

namespace Sys2Proof.Machine

/-- `complete = (s.parser_state == DONE)` (R33). -/
def completeFlag (m : Message) : Bool := m.parserState == ParserState.done.code

/-- `rd_err = (rd_sel >= NUM_FIELDS)` (R161). -/
def rdErrFlag (cfg : Config) (sel : Byte) : Bool := decide (cfg.numFields ≤ sel.toNat)

/-- `in_ready = ~rst & ~init`, a function of the inputs of the same cycle (R102). -/
def inReady (w : ControlWord) : Bool := !ctrlRst w && !ctrlInit w

/-- The byte consumed at an edge with this control word, if any: `in_byte` when `in_valid` = 1 and
`in_ready` = 1 (R102). -/
def consumedByte (w : ControlWord) : Option Byte :=
  if ctrlValid w && inReady w then some (ctrlByte w) else none

end Sys2Proof.Machine
end

