-- ==== Sys2Proof/Machine/Ops.lean ====
section
/-! DEFINITION. The named operations over the state: byte spaces (20_memory.md), the record's registers, the
accumulations and RESTART (41_parse_byte.md R122, R123, R124, R131), the read ports, and the host's
input stream. The GMF takes no exception and returns from none (60_exceptions.md R200, R207). -/

namespace Sys2Proof.Machine

/-- `MemWrite(buf, i, 1, v)`, keeping the canonical form: writing `Memory.blank` removes the entry. -/
def Memory.write : Memory → Nat → Byte → Memory
  | [], i, v => if v = Memory.blank then [] else [(i, v)]
  | (k, b) :: rest, i, v =>
    if i < k then
      if v = Memory.blank then (k, b) :: rest else (i, v) :: (k, b) :: rest
    else if i = k then
      if v = Memory.blank then rest else (i, v) :: rest
    else (k, b) :: Memory.write rest i v

/-- The canonical form of a byte space: indices strictly rising, no entry blank. -/
def Memory.wf (buf : Memory) : Bool :=
  decide (List.Pairwise (fun c d : Host.Cell => c.1 < d.1) buf) && buf.all (fun c => c.2 != Memory.blank)

/-- Every listed index of a byte space is below `n`: bytes `n` and up are blank. -/
def Memory.below (buf : Memory) (n : Nat) : Bool := buf.all (fun c => decide (c.1 < n))

/-- `s.parser_state <- p`. -/
def Message.goto (m : Message) (p : ParserState) : Message := { m with parserState := p.code }

/-- `s.write_counter <- v`. -/
def Message.setCounter (m : Message) (v : Byte) : Message := { m with writeCounter := v }

/-- `s.write_field <- v`. -/
def Message.setSlot (m : Message) (v : Byte) : Message := { m with writeField := v }

/-- `s.source <- v`. -/
def Message.setSource (m : Message) (v : Byte) : Message := { m with source := v }

/-- `s.dest <- v`. -/
def Message.setDest (m : Message) (v : Byte) : Message := { m with dest := v }

/-- `s.command <- buf`. -/
def Message.setCommand (m : Message) (buf : Memory) : Message := { m with command := buf }

/-- `s.fields[j] <- buf`. -/
def Message.setField (m : Message) (j : Nat) (buf : Memory) : Message :=
  { m with fields := m.fields.set j buf }

/-- The whole record written at an edge. -/
def State.setRecord (s : State) (m : Message) : State := { s with record := some m }

/-- What a read operation showed, kept for the host. -/
def State.observe (s : State) (o : Observation) : State := { s with observed := some o }

/-- What the host will present from now on. -/
def State.setPending (s : State) (xs : List Stimulus) : State := { s with pending := xs }

/-- The writes of INIT, which RESET performs too (R100, R220): every element of the record written. -/
def clearRecord (cfg : Config) : Message where
  parserState := ParserState.readingStart.code
  command := []
  source := 0x00#8
  dest := 0x00#8
  fields := List.replicate cfg.numFields []
  writeCounter := 0x00#8
  writeField := 0x00#8

/-- RESTART: every write of INIT except that `s.parser_state` becomes READING_COMMAND (R131). -/
def restart (cfg : Config) : Message := (clearRecord cfg).goto .readingCommand

/-- ACC_CMD(b) (R122). -/
def accCommand (cfg : Config) (m : Message) (b : Byte) : Message :=
  if m.writeCounter.toNat < cfg.commandLength then
    (m.setCommand (Memory.write m.command m.writeCounter.toNat b)).setCounter (m.writeCounter + 1#8)
  else m

/-- ACC_FIELD(b) (R123). A slot that is not there faults; no reachable state has one (R28). -/
def accField (cfg : Config) (m : Message) (b : Byte) : Except Fault Message :=
  if m.writeCounter.toNat < cfg.fieldLength then
    match m.fields[m.writeField.toNat]? with
    | none => .error .noSuchSlot
    | some buf =>
      .ok ((m.setField m.writeField.toNat (Memory.write buf m.writeCounter.toNat b)).setCounter
        (m.writeCounter + 1#8))
  else .ok m

/-- ACC_ADDR: the new value `(r * 10 + (b - 0x30)) mod 256` of an address register (R124). -/
def accAddr (r b : Byte) : Byte := BitVec.ofNat 8 (r.toNat * 10 + digitValue b)

/-- The record that an operation other than RESET and INIT finds: in the power-up state there is none
(R35, R221), and `s.parser_state` must be one of the six states (R22). -/
def State.current (s : State) : Except Fault (ParserState × Message) :=
  match s.record with
  | none => .error .noValue
  | some m =>
    match ParserState.ofCode m.parserState with
    | none => .error .illegalParserState
    | some p => .ok (p, m)

/-- A consumed byte: `rule` reads the record before the edge and gives the record after it; all its
writes take effect together (R56, R120). -/
def consume (s : State) (rule : ParserState → Message → Except Fault Message) :
    Host.Outcome State Fault Refusal :=
  match s.current with
  | .error e => .fault e
  | .ok (p, m) =>
    match rule p m with
    | .error e => .fault e
    | .ok m' => .next (s.setRecord m')

/-- A read operation: `port` says what the outputs show of the record, which stays as it is (R58). -/
def readPort (s : State) (port : Message → Except Fault Observation) : Host.Outcome State Fault Refusal :=
  match s.current with
  | .error e => .fault e
  | .ok (_, m) =>
    match port m with
    | .error e => .fault e
    | .ok o => .next (s.observe o)

/-- The `read_field` port for any select (R160, R161): `rd_err`, `rd_len`, `rd_data`. -/
def fieldPort (cfg : Config) (sel : Byte) (m : Message) : Except Fault Observation :=
  if rdErrFlag cfg sel then .ok (.field true 0x00#8 (List.replicate cfg.fieldLength 0x00#8))
  else
    match m.fields[sel.toNat]? with
    | none => .error .noSuchSlot
    | some buf => .ok (.field false (textLengthOut buf cfg.fieldLength) (spaceBytes buf cfg.fieldLength))

/-- The command port (R162): `cmd_len`, `cmd_data`. -/
def commandPort (cfg : Config) (m : Message) : Observation :=
  .command (textLengthOut m.command cfg.commandLength) (spaceBytes m.command cfg.commandLength)

/-- The status ports (R165): `complete`, `state_o`, `wc_o`, `wf_o`. -/
def statusPort (m : Message) : Observation :=
  .status (completeFlag m) m.parserState m.writeCounter m.writeField

/-- What the host presents next. With nothing pending it requests nothing: an edge with `rst`, `init`
and `in_valid` 0 (DESIGN CHOICE, log 3). -/
def State.fetch (s : State) : Stimulus :=
  match s.pending with
  | [] => .edge 0x000#11
  | x :: _ => x

/-- The state with the fetched input taken off the host's stream. -/
def State.advance (s : State) : State := s.setPending s.pending.tail

/-- The state in which the host presents `x` next, and then what it would have presented. -/
def State.present (s : State) (x : Stimulus) : State := s.setPending (x :: s.pending)

end Sys2Proof.Machine
end

