-- ==== Sys2Proof/Machine/Control.lean ====
section
/-! DEFINITION. The control operations RESET (70_reset_and_hazards.md R220), INIT and IDLE (40_control.md R100, R101). -/

namespace Sys2Proof.Machine

/-- RESET (R220): exactly the writes of INIT, in every state, the power-up state included. -/
def execReset (s : State) : Host.Outcome State Fault Refusal := .next (s.setRecord (clearRecord s.cfg))

/-- INIT (R100), in every state. -/
def execInit (s : State) : Host.Outcome State Fault Refusal := .next (s.setRecord (clearRecord s.cfg))

/-- IDLE (R101): no state element changes. A state without a value keeps none (log 5); codes 6 and 7 of
`s.parser_state` have no next state (R22, log 6). -/
def execIdle (s : State) : Host.Outcome State Fault Refusal :=
  match s.current with
  | .ok _ => .next s
  | .error .noValue => .next s
  | .error e => .fault e

end Sys2Proof.Machine
end

