-- ==== Sys2Proof/Machine/ParseByte.lean ====
section
/-! DEFINITION. The byte operations, the parse_byte state machine (41_parse_byte.md R120, R125 to R131). A rule that
says *discard* answers the record it was given. -/

namespace Sys2Proof.Machine

/-- PB_START (R125, R130, R131). -/
def execPbStart (s : State) : Host.Outcome State Fault Refusal :=
  consume s fun p m =>
    match p with
    | .readingStart => .ok ((m.goto .readingCommand).setCounter 0x00#8)
    | .readingCommand | .readingSource | .readingDest | .readingField =>
      if s.cfg.resyncMidFrame then .ok (restart s.cfg) else .ok m
    | .done => .ok m

/-- PB_SEP (R126, R130). With a separator beyond the last field the counter goes to FIELD_LENGTH, so that
later content finds no room (R29). -/
def execPbSep (s : State) : Host.Outcome State Fault Refusal :=
  consume s fun p m =>
    match p with
    | .readingStart => .ok m
    | .readingCommand => .ok ((m.goto .readingSource).setCounter 0x00#8)
    | .readingSource => .ok (m.goto .readingDest)
    | .readingDest => .ok (((m.goto .readingField).setCounter 0x00#8).setSlot 0x00#8)
    | .readingField =>
      if m.writeField.toNat < s.cfg.numFields - 1 then
        .ok ((m.setSlot (m.writeField + 1#8)).setCounter 0x00#8)
      else .ok (m.setCounter (BitVec.ofNat 8 s.cfg.fieldLength))
    | .done => .ok m

/-- PB_END (R127, R130). -/
def execPbEnd (s : State) : Host.Outcome State Fault Refusal :=
  consume s fun p m =>
    match p with
    | .readingStart | .readingCommand | .readingSource | .readingDest => .ok m
    | .readingField => if m.writeField.toNat = s.cfg.numFields - 1 then .ok (m.goto .done) else .ok m
    | .done => .ok m

/-- PB_DIGIT (R128, R130). -/
def execPbDigit (b : Byte) (s : State) : Host.Outcome State Fault Refusal :=
  consume s fun p m =>
    match p with
    | .readingStart => .ok m
    | .readingCommand => .ok (accCommand s.cfg m b)
    | .readingSource => .ok (m.setSource (accAddr m.source b))
    | .readingDest => .ok (m.setDest (accAddr m.dest b))
    | .readingField => accField s.cfg m b
    | .done => .ok m

/-- PB_OTHER (R129, R130). -/
def execPbOther (b : Byte) (s : State) : Host.Outcome State Fault Refusal :=
  consume s fun p m =>
    match p with
    | .readingStart => .ok m
    | .readingCommand => .ok (accCommand s.cfg m b)
    | .readingSource | .readingDest => .ok m
    | .readingField => accField s.cfg m b
    | .done => .ok m

end Sys2Proof.Machine
end

