-- ==== Sys2Proof/Machine/ReadOut.lean ====
section
/-! DEFINITION. The read operations (42_readout.md R160 to R166): each shows its port to the host and changes no
element of the record (20_memory.md R58). -/

namespace Sys2Proof.Machine

/-- RD_FIELD (R160). -/
def execRdField (sel : Byte) (s : State) : Host.Outcome State Fault Refusal :=
  readPort s (fieldPort s.cfg sel)

/-- RD_FIELD_OOR (R161). -/
def execRdFieldOor (sel : Byte) (s : State) : Host.Outcome State Fault Refusal :=
  readPort s (fieldPort s.cfg sel)

/-- RD_COMMAND (R162). -/
def execRdCommand (s : State) : Host.Outcome State Fault Refusal :=
  readPort s fun m => .ok (commandPort s.cfg m)

/-- RD_SOURCE (R163): `source_o = s.source`. -/
def execRdSource (s : State) : Host.Outcome State Fault Refusal :=
  readPort s fun m => .ok (.source m.source)

/-- RD_DEST (R164): `dest_o = s.dest`. -/
def execRdDest (s : State) : Host.Outcome State Fault Refusal :=
  readPort s fun m => .ok (.dest m.dest)

/-- RD_STATUS (R165). -/
def execRdStatus (s : State) : Host.Outcome State Fault Refusal :=
  readPort s fun m => .ok (statusPort m)

end Sys2Proof.Machine
end

