-- ==== Sys2Proof/Machine/Dispatch.lean ====
section
/-! DEFINITION. One arm per operation of the opcode table, each a direct call of its meaning. -/

namespace Sys2Proof.Machine

def exec (i : Instr) (s : State) : Host.Outcome State Fault Refusal :=
  match i with
  | .reset => Sys2Proof.Machine.execReset s
  | .init => Sys2Proof.Machine.execInit s
  | .idle => Sys2Proof.Machine.execIdle s
  | .pbStart => Sys2Proof.Machine.execPbStart s
  | .pbSep => Sys2Proof.Machine.execPbSep s
  | .pbEnd => Sys2Proof.Machine.execPbEnd s
  | .pbDigit b => Sys2Proof.Machine.execPbDigit b s
  | .pbOther b => Sys2Proof.Machine.execPbOther b s
  | .rdField sel => Sys2Proof.Machine.execRdField sel s
  | .rdFieldOor sel => Sys2Proof.Machine.execRdFieldOor sel s
  | .rdCommand => Sys2Proof.Machine.execRdCommand s
  | .rdSource => Sys2Proof.Machine.execRdSource s
  | .rdDest => Sys2Proof.Machine.execRdDest s
  | .rdStatus => Sys2Proof.Machine.execRdStatus s

end Sys2Proof.Machine
end

