-- ==== Sys2Proof/Machine/Step.lean ====
section
/-! DEFINITION. One step: the operation the host presents next, run on the state with that input taken off the
host's stream (20_memory.md R61). -/

namespace Sys2Proof.Machine

/-- One step: one rising edge, or one look at the outputs between two edges (log 3). An ill-formed
configuration is refused before any word is decoded (R72, R204). -/
def step (s : State) : Host.Outcome State Fault Refusal :=
  match decode s.cfg s.fetch with
  | .error .illFormedConfig => .refused .illFormedConfig
  | .ok i => exec i s.advance

/-- The state in which the host presents a table row's bits next. A row without bits stays unpresented. -/
def State.withFetchWord (s : State) (nbits w : Nat) : State :=
  match stimulusOfTable nbits w with
  | some x => s.present x
  | none => s

end Sys2Proof.Machine
end

