-- ==== Sys2Proof/Machine/HostProgram.lean ====
section
/-! DEFINITION. What the host presents: the statements of 30_encoding.md R79, the frame grammar of R77, and the length
of a frame (R78). -/

namespace Sys2Proof.Machine

/-- `RESET`: one edge with `rst` = 1 (R79). -/
def stmtReset : Stimulus := .edge 0x400#11

/-- `INIT`: one edge with `init` = 1 and `in_valid` = 0 (R79). -/
def stmtInit : Stimulus := .edge 0x200#11

/-- `IDLE`: one edge with nothing requested (R79). -/
def stmtIdle : Stimulus := .edge 0x000#11

/-- `BYTE b`: one edge with `in_valid` = 1 and `in_byte` = b (R79). -/
def stmtByte (b : Byte) : Stimulus := .edge (byteWord b)

/-- `READ j`: the outputs observed with `rd_sel` = j; not an edge (R79). -/
def stmtRead (j : Byte) : Stimulus := .read j

/-- `START` (R79). -/
def stmtStart (cfg : Config) : Stimulus := stmtByte cfg.startByte

/-- `SEP` (R79). -/
def stmtSep (cfg : Config) : Stimulus := stmtByte cfg.sepByte

/-- `END` (R79). -/
def stmtEnd (cfg : Config) : Stimulus := stmtByte cfg.endByte

/-- `TEXT "c1c2...cn"`: one `BYTE` a character, nothing for "" (R79). -/
def stmtText (bs : List Byte) : List Stimulus := bs.map stmtByte

/-- The groups of a frame: command, source digits, dest digits, payload fields (R77). -/
structure Frame where
  command : List Byte
  source : List Byte
  dest : List Byte
  fields : List (List Byte)
  deriving DecidableEq, Repr

/-- The payload part of a frame: the field groups with one SEP_BYTE between neighbours (R77). -/
def Frame.payload (cfg : Config) : List (List Byte) → List Byte
  | [] => []
  | [g] => g
  | g :: rest => g ++ cfg.sepByte :: Frame.payload cfg rest

/-- The bytes of a frame on the wire, by the grammar of R77 for general NUM_FIELDS. -/
def Frame.bytes (cfg : Config) (f : Frame) : List Byte :=
  cfg.startByte :: f.command ++ cfg.sepByte :: f.source ++ cfg.sepByte :: f.dest ++
    cfg.sepByte :: Frame.payload cfg f.fields ++ [cfg.endByte]

/-- `FRAME cmd, src, dst, f0, f1, ...` (R79). -/
def stmtFrame (cfg : Config) (f : Frame) : List Stimulus := stmtText (f.bytes cfg)

/-- Every byte of a group is a content byte: no marker inside it (R73, R77). -/
def contentOnly (cfg : Config) (bs : List Byte) : Bool := bs.all fun b => cls cfg b == .content

/-- A frame of the grammar whose groups hold no marker and whose address groups are decimal digits, with
any number of fields of any length: R77 without its bounds. -/
def Frame.grammatical (cfg : Config) (f : Frame) : Bool :=
  contentOnly cfg f.command && f.source.all isDigit && f.dest.all isDigit && f.fields.all (contentOnly cfg)

/-- A well-formed frame: the grammar and its bounds (R77). -/
def Frame.wf (cfg : Config) (f : Frame) : Bool :=
  f.grammatical cfg && decide (f.command.length ≤ cfg.commandLength) &&
    decide (f.fields.length = cfg.numFields) && f.fields.all (fun g => decide (g.length ≤ cfg.fieldLength))

/-- The decimal numeral of a digit sequence, most significant digit first (R55, R124). -/
def numeral (ds : List Byte) : Nat := ds.foldl (fun n d => n * 10 + digitValue d) 0

end Sys2Proof.Machine
end

