-- ==== Sys2Proof/Safety.lean ====
section
/-! DEFINITION. The terms in which statements speak of runs: what a completed step is, a run over a host program, and
the invariants of reachable states (10_state.md R22, R27, R28; 41_parse_byte.md R132, R139). -/

namespace Sys2Proof.Machine

/-- A step or a meaning completes: it answers a next state, no fault and no refusal. -/
def Completes (o : Host.Outcome State Fault Refusal) : Prop := ∃ t, o = .next t

/-- A run over a host program: the host presents `xs` in order, one step each (R61, R79). -/
def runProgram (xs : List Stimulus) (s : State) : Host.Outcome State Fault Refusal :=
  Sys2Proof.core.run xs.length (s.setPending xs)

/-- `new` is `old` with byte `i` holding `b` and every other byte as it was. -/
def Memory.StoresOnly (old new : Memory) (i : Nat) (b : Byte) : Prop :=
  Memory.read new i = b ∧ ∀ a, a ≠ i → Memory.read new a = Memory.read old a

/-- The values that every state element holds after RESET or INIT (R34), every byte read one by one. -/
structure Message.Empty (cfg : Config) (m : Message) : Prop where
  parserState : m.parserState = 0#3
  writeCounter : m.writeCounter = 0x00#8
  writeField : m.writeField = 0x00#8
  command : ∀ i, Memory.read m.command i = 0x00#8
  slots : m.fields.length = cfg.numFields
  fields : ∀ buf ∈ m.fields, ∀ i, Memory.read buf i = 0x00#8
  source : m.source = 0x00#8
  dest : m.dest = 0x00#8

/-- The bytes of a space spell the list from index 0 on and are 0x00 after it. -/
def Memory.Spells (buf : Memory) (bs : List Byte) : Prop := ∀ i, Memory.read buf i = bs.getD i 0x00#8

/-- The length a text length output shows: `n` is the least index below `cap` that holds 0x00, or `cap`
(R53). -/
def Memory.HasTextLength (buf : Memory) (cap n : Nat) : Prop :=
  n ≤ cap ∧ (∀ i, i < n → Memory.read buf i ≠ 0x00#8) ∧ (n < cap → Memory.read buf n = 0x00#8)

/-- The lanes of a flat bus show a space of capacity `cap`: lane `i` is byte `i` (R54). -/
def Memory.ShownOn (buf : Memory) (cap : Nat) (lanes : List Byte) : Prop :=
  lanes.length = cap ∧ ∀ i, i < cap → lanes[i]? = some (Memory.read buf i)

/-- An IDLE edge: `rst`, `init` and `in_valid` are 0, the byte is anything (R101). -/
def isIdleEdge : Stimulus → Bool
  | .edge w => !w.getLsbD 10 && !w.getLsbD 9 && !w.getLsbD 8
  | .read _ => false
  | .port _ => false

/-- An edge that requests RESET or INIT (R71). -/
def isClearEdge : Stimulus → Bool
  | .edge w => w.getLsbD 10 || w.getLsbD 9
  | .read _ => false
  | .port _ => false

/-- The operations of a consumed byte (R103). -/
def isByteOp : Instr → Bool
  | .pbStart | .pbSep | .pbEnd | .pbDigit _ | .pbOther _ => true
  | .reset | .init | .idle => false
  | .rdField _ | .rdFieldOor _ | .rdCommand | .rdSource | .rdDest | .rdStatus => false

/-- The read operations (R160 to R165). -/
def isReadOp : Instr → Bool
  | .rdField _ | .rdFieldOor _ | .rdCommand | .rdSource | .rdDest | .rdStatus => true
  | .reset | .init | .idle => false
  | .pbStart | .pbSep | .pbEnd | .pbDigit _ | .pbOther _ => false

/-- The record has the shape of R20 and R50: each space canonical and within its capacity, NUM_FIELDS
slots. -/
structure Message.Shape (cfg : Config) (m : Message) : Prop where
  commandCanonical : Memory.wf m.command = true
  commandInside : Memory.below m.command cfg.commandLength = true
  slots : m.fields.length = cfg.numFields
  fieldsCanonical : ∀ buf ∈ m.fields, Memory.wf buf = true
  fieldsInside : ∀ buf ∈ m.fields, Memory.below buf cfg.fieldLength = true

/-- The legal codes (R22) and the ranges of the counters in every reachable state (R27, R28). In DONE
`s.write_field` keeps the NUM_FIELDS-1 at which END_BYTE was consumed (R127). -/
structure Message.Ranges (cfg : Config) (m : Message) : Prop where
  legalCode : m.parserState.toNat ≤ 5
  counterInStart : m.parserState = ParserState.readingStart.code → m.writeCounter = 0#8
  counterInCommand : m.parserState = ParserState.readingCommand.code → m.writeCounter.toNat ≤ cfg.commandLength
  counterInSource : m.parserState = ParserState.readingSource.code → m.writeCounter = 0#8
  counterInDest : m.parserState = ParserState.readingDest.code → m.writeCounter = 0#8
  counterInField : m.parserState = ParserState.readingField.code → m.writeCounter.toNat ≤ cfg.fieldLength
  counterInDone : m.parserState = ParserState.done.code → m.writeCounter.toNat ≤ cfg.fieldLength
  slotInRange : m.writeField.toNat < cfg.numFields
  slotBeforeField : m.parserState.toNat < 4 → m.writeField = 0#8
  slotInDone : m.parserState = ParserState.done.code → m.writeField.toNat = cfg.numFields - 1

/-- What a frame has not reached yet is still as INIT left it (it follows from R34, R51 and R126). -/
structure Message.BlankAhead (cfg : Config) (m : Message) : Prop where
  inStart : m.parserState = ParserState.readingStart.code → m = Message.fresh cfg
  commandAhead : m.parserState = ParserState.readingCommand.code →
    Memory.below m.command m.writeCounter.toNat = true
  sourceAhead : m.parserState.toNat < 2 → m.source = 0#8
  destAhead : m.parserState.toNat < 3 → m.dest = 0#8
  fieldsAhead : m.parserState.toNat < 4 → ∀ buf ∈ m.fields, buf = []
  slotAhead : m.parserState = ParserState.readingField.code →
    ∀ buf, m.fields[m.writeField.toNat]? = some buf → Memory.below buf m.writeCounter.toNat = true
  slotsAhead : m.parserState = ParserState.readingField.code →
    ∀ j buf, m.writeField.toNat < j → m.fields[j]? = some buf → buf = []

/-- The invariant of a record that some run reaches (R139). -/
structure Message.Inv (cfg : Config) (m : Message) : Prop where
  shape : m.Shape cfg
  ranges : m.Ranges cfg
  blankAhead : m.BlankAhead cfg

/-- The invariant of a machine: a configuration the spec admits, and a record that is either without a
value (power-up) or as some run leaves it. -/
structure State.Inv (s : State) : Prop where
  config : s.cfg.wf = true
  record : ∀ m, s.record = some m → m.Inv s.cfg

/-- No stored byte is a marker (R132): every listed byte of every space is a content byte. -/
structure Message.MarkerFree (cfg : Config) (m : Message) : Prop where
  command : ∀ c ∈ m.command, cls cfg c.2 = .content
  fields : ∀ buf ∈ m.fields, ∀ c ∈ buf, cls cfg c.2 = .content

/-- No marker byte is stored anywhere (R132). -/
def State.MarkerFree (s : State) : Prop := ∀ m, s.record = some m → m.MarkerFree s.cfg

end Sys2Proof.Machine
end

