-- ==== Sys2Proof/Certificates/Slice0/Obligations.lean ====
section
/-! DEFINITION. The statements about the GMF that the provers settle, each citing the rule of spec/ it rests on. Unless
it says otherwise, a statement holds for every configuration, because `State.cfg` is any. -/

open Sys2Proof Sys2Proof.Machine

/-! ### Encoding -/

/-- R71: the control word selects one operation, RESET before INIT before IDLE before the class of the
byte. -/
def Obligations.ControlWordSelectsByPriority : Prop :=
  ∀ (cfg : Config) (w : ControlWord), cfg.wf = true →
    (w.getLsbD 10 = true → decode cfg (.edge w) = .ok .reset) ∧
    (w.getLsbD 10 = false → w.getLsbD 9 = true → decode cfg (.edge w) = .ok .init) ∧
    (w.getLsbD 10 = false → w.getLsbD 9 = false → w.getLsbD 8 = false → decode cfg (.edge w) = .ok .idle) ∧
    (w.getLsbD 10 = false → w.getLsbD 9 = false → w.getLsbD 8 = true →
      ∀ b : Byte, b = w.extractLsb' 0 8 →
        (b = cfg.startByte → decode cfg (.edge w) = .ok .pbStart) ∧
        (b = cfg.sepByte → decode cfg (.edge w) = .ok .pbSep) ∧
        (b = cfg.endByte → decode cfg (.edge w) = .ok .pbEnd) ∧
        (b ≠ cfg.startByte → b ≠ cfg.sepByte → b ≠ cfg.endByte →
          (0x30 ≤ b.toNat ∧ b.toNat ≤ 0x39 → decode cfg (.edge w) = .ok (.pbDigit b)) ∧
          (b.toNat < 0x30 ∨ 0x39 < b.toNat → decode cfg (.edge w) = .ok (.pbOther b))))

/-- 30_encoding.md, first paragraph, and R72: of the opcode table's CYCLE rows, the decoder takes the
matching one of lowest priority, and every control word has one. -/
def Obligations.DecoderTakesLowestPriorityRow : Prop :=
  ∀ (cfg : Config) (w : ControlWord), cfg.wf = true →
    ∃ i, decode cfg (.edge w) = .ok i ∧ rowMatches cfg i w = true ∧
      ∀ j, rowMatches cfg j w = true → j ≠ i →
        ∃ p q, rowPriority i = some p ∧ rowPriority j = some q ∧ p < q

/-- Decode and encode agree on every well-formed operation of every well-formed configuration. -/
def Obligations.DecodeInvertsEncode : Prop :=
  ∀ (cfg : Config) (i : Instr), cfg.wf = true → i.wf cfg = true → decode cfg (encode cfg i) = .ok i

/-- What the decoder reads is well-formed, and encoding it gives back every bit its row looks at; for a
consumed byte, a select and a port, every bit. -/
def Obligations.EncodeGivesBackDecodedBits : Prop :=
  ∀ (cfg : Config) (x : Stimulus) (i : Instr), decode cfg x = .ok i →
    i.wf cfg = true ∧
    (∀ w, x = .edge w →
      ∃ v, encode cfg i = .edge v ∧ v &&& rowMask i = w &&& rowMask i ∧ (isByteOp i = true → v = w)) ∧
    (∀ sel, x = .read sel → encode cfg i = .read sel) ∧
    (∀ p, x = .port p → encode cfg i = .port p)

/-- R79 and the opcode table's `match` column: these words of the reference configuration (log 1) stand for
these operations. -/
def Obligations.ReferenceWordsDecode : Prop :=
  decode Config.reference (.edge 0x400#11) = .ok .reset ∧
  decode Config.reference (.edge 0x200#11) = .ok .init ∧
  decode Config.reference (.edge 0x000#11) = .ok .idle ∧
  decode Config.reference (.edge 0x13C#11) = .ok .pbStart ∧
  decode Config.reference (.edge 0x17C#11) = .ok .pbSep ∧
  decode Config.reference (.edge 0x13E#11) = .ok .pbEnd ∧
  decode Config.reference (.edge 0x130#11) = .ok (.pbDigit 0x30#8) ∧
  decode Config.reference (.edge 0x139#11) = .ok (.pbDigit 0x39#8) ∧
  decode Config.reference (.edge 0x14D#11) = .ok (.pbOther 0x4D#8) ∧
  decode Config.reference (.read 2#8) = .ok (.rdField 2#8) ∧
  decode Config.reference (.read 3#8) = .ok (.rdFieldOor 3#8)

/-- R76: the select splits into RD_FIELD and RD_FIELD_OOR at NUM_FIELDS; the other outputs have a port of
their own. -/
def Obligations.ReadSelectSplitsAtNumFields : Prop :=
  ∀ (cfg : Config) (sel : Byte), cfg.wf = true →
    (sel.toNat < cfg.numFields → decode cfg (.read sel) = .ok (.rdField sel)) ∧
    (cfg.numFields ≤ sel.toNat → decode cfg (.read sel) = .ok (.rdFieldOor sel)) ∧
    decode cfg (.port .command) = .ok .rdCommand ∧ decode cfg (.port .source) = .ok .rdSource ∧
    decode cfg (.port .dest) = .ok .rdDest ∧ decode cfg (.port .status) = .ok .rdStatus

/-- R204 with R11 and R12: a step is refused exactly when the configuration is ill-formed. -/
def Obligations.IllFormedConfigurationRefused : Prop :=
  ∀ s : State, step s = .refused .illFormedConfig ↔
    ¬ (1 ≤ s.cfg.commandLength ∧ s.cfg.commandLength ≤ 255 ∧ 1 ≤ s.cfg.fieldLength ∧ s.cfg.fieldLength ≤ 255 ∧
        1 ≤ s.cfg.numFields ∧ s.cfg.numFields ≤ 256 ∧
        s.cfg.startByte ≠ s.cfg.sepByte ∧ s.cfg.startByte ≠ s.cfg.endByte ∧ s.cfg.sepByte ≠ s.cfg.endByte ∧
        ∀ b : Byte, b = s.cfg.startByte ∨ b = s.cfg.sepByte ∨ b = s.cfg.endByte →
          b.toNat < 0x30 ∨ 0x39 < b.toNat)

/-- A step runs the operation the host presents next, on the state with that input taken off; with
nothing presented it is an IDLE edge (the model's choice, log 3). -/
def Obligations.StepRunsDecodedOperation : Prop :=
  ∀ s : State, s.cfg.wf = true →
    (∀ x rest i, s.pending = x :: rest → decode s.cfg x = .ok i →
      step s = exec i { s with pending := rest }) ∧
    (s.pending = [] → step s = exec .idle s)

/-- R102, R103, R71: `in_ready` and the consumed byte as functions of the control word; a byte offered
while `in_ready` is 0 takes no part, and a byte operation runs exactly for a consumed byte. -/
def Obligations.HandshakeConsumesOfferedByte : Prop :=
  ∀ (cfg : Config) (w : ControlWord), cfg.wf = true →
    (inReady w = true ↔ w.getLsbD 10 = false ∧ w.getLsbD 9 = false) ∧
    (∀ b, consumedByte w = some b ↔ w = 0x100#11 ||| b.setWidth 11) ∧
    (∀ v : ControlWord, inReady w = false → v.getLsbD 10 = w.getLsbD 10 → v.getLsbD 9 = w.getLsbD 9 →
      decode cfg (.edge v) = decode cfg (.edge w)) ∧
    ((∃ b, consumedByte w = some b) ↔ ∃ i, decode cfg (.edge w) = .ok i ∧ isByteOp i = true)

/-! ### Control operations -/

/-- R34: the record and the derived outputs after RESET or INIT, from any state. -/
def Obligations.ResetAndInitLeaveEmptyMessage : Prop :=
  ∀ (i : Instr) (s : State), i = .reset ∨ i = .init →
    ∃ m, exec i s = .next { s with record := some m } ∧ m.Empty s.cfg ∧ completeFlag m = false ∧
      commandPort s.cfg m = .command 0x00#8 (List.replicate s.cfg.commandLength 0x00#8) ∧
      statusPort m = .status false 0#3 0x00#8 0x00#8 ∧
      ∀ sel : Byte, sel.toNat < s.cfg.numFields →
        fieldPort s.cfg sel m = .ok (.field false 0x00#8 (List.replicate s.cfg.fieldLength 0x00#8))

/-- R100: INIT's encoding, its writes from every state, `complete`, and that a second INIT changes
nothing. -/
def Obligations.InitClearsFromEveryState : Prop :=
  ∀ s : State,
    (∃ m, exec .init s = .next { s with record := some m } ∧ m.Empty s.cfg ∧ completeFlag m = false ∧
      exec .init { s with record := some m } = .next { s with record := some m }) ∧
    ∀ w : ControlWord, w &&& 0x600#11 = 0x200#11 → consumedByte w = none ∧
      (s.cfg.wf = true → decode s.cfg (.edge w) = .ok .init)

/-- R220: RESET's encoding, and that it performs exactly the writes of INIT from every state, the power-up
state included; held for longer it does no more. -/
def Obligations.ResetPerformsInitWrites : Prop :=
  ∀ s : State,
    exec .reset s = exec .init s ∧
    (∃ m, exec .reset s = .next { s with record := some m } ∧ m.Empty s.cfg ∧ completeFlag m = false ∧
      exec .reset { s with record := some m } = .next { s with record := some m }) ∧
    ∀ w : ControlWord, w &&& 0x400#11 = 0x400#11 → inReady w = false ∧ consumedByte w = none ∧
      (s.cfg.wf = true → decode s.cfg (.edge w) = .ok .reset)

/-- `State.reset` is what RESET makes of hardware powered up with the reference configuration (the model's
choice of configuration, log 1). -/
def Obligations.ResetStateFollowsPowerUp : Prop :=
  exec .reset (State.powerUp Config.reference) = .next State.reset

/-- R101: IDLE changes nothing, in the power-up state (log 5) and in each of the six states. -/
def Obligations.IdleKeepsState : Prop :=
  ∀ s : State, (∀ m, s.record = some m → m.parserState.toNat ≤ 5) →
    exec .idle s = .next s ∧
    ∀ w : ControlWord, w &&& 0x700#11 = 0x000#11 → s.cfg.wf = true → decode s.cfg (.edge w) = .ok .idle

/-- R101: any number of IDLE edges may come between any operations without changing what they do. -/
def Obligations.IdleEdgesAreInvisible : Prop :=
  ∀ (s : State) (xs : List Stimulus), s.Inv →
    runProgram xs s = runProgram (xs.filter fun x => !isIdleEdge x) s

/-- R105: any two sequences of operations that each end with INIT leave equal records, whatever came
before. -/
def Obligations.InitForgetsHistory : Prop :=
  ∀ (s₁ s₂ t₁ t₂ : State) (xs ys : List Stimulus), s₁.cfg = s₂.cfg → s₁.cfg.wf = true →
    runProgram (xs ++ [stmtInit]) s₁ = .next t₁ → runProgram (ys ++ [stmtInit]) s₂ = .next t₂ →
    t₁.record = t₂.record ∧ ∃ m, t₁.record = some m ∧ m.Empty s₁.cfg

/-! ### Byte operations -/

/-- R125: PB_START in each of the six states, its encoding, and `complete`. -/
def Obligations.PbStartActsByState : Prop :=
  ∀ (s : State) (m : Message), s.record = some m →
    (m.parserState = 0#3 →
      exec .pbStart s = .next { s with record := some { m with parserState := 1#3, writeCounter := 0x00#8 } }) ∧
    (1 ≤ m.parserState.toNat ∧ m.parserState.toNat ≤ 4 → s.cfg.resyncMidFrame = false →
      exec .pbStart s = .next s) ∧
    (1 ≤ m.parserState.toNat ∧ m.parserState.toNat ≤ 4 → s.cfg.resyncMidFrame = true →
      exec .pbStart s = .next { s with
          record := some {
            parserState := 1#3
            command := []
            source := 0x00#8
            dest := 0x00#8
            fields := List.replicate s.cfg.numFields []
            writeCounter := 0x00#8
            writeField := 0x00#8 } }) ∧
    (m.parserState = 5#3 → exec .pbStart s = .next s) ∧
    (∀ t m', exec .pbStart s = .next t → t.record = some m' → completeFlag m' = completeFlag m) ∧
    (s.cfg.wf = true → decode s.cfg (.edge (0x100#11 ||| s.cfg.startByte.setWidth 11)) = .ok .pbStart)

/-- R126: PB_SEP in each of the six states, its encoding, and `complete`. -/
def Obligations.PbSepActsByState : Prop :=
  ∀ (s : State) (m : Message), s.record = some m →
    (m.parserState = 0#3 → exec .pbSep s = .next s) ∧
    (m.parserState = 1#3 →
      exec .pbSep s = .next { s with record := some { m with parserState := 2#3, writeCounter := 0x00#8 } }) ∧
    (m.parserState = 2#3 → exec .pbSep s = .next { s with record := some { m with parserState := 3#3 } }) ∧
    (m.parserState = 3#3 →
      exec .pbSep s = .next { s with
          record := some { m with parserState := 4#3, writeCounter := 0x00#8, writeField := 0x00#8 } }) ∧
    (m.parserState = 4#3 → m.writeField.toNat < s.cfg.numFields - 1 →
      exec .pbSep s = .next { s with
          record := some { m with
            writeField := BitVec.ofNat 8 (m.writeField.toNat + 1)
            writeCounter := 0x00#8 } }) ∧
    (m.parserState = 4#3 → s.cfg.numFields - 1 ≤ m.writeField.toNat →
      exec .pbSep s = .next { s with record := some { m with writeCounter := BitVec.ofNat 8 s.cfg.fieldLength } }) ∧
    (m.parserState = 5#3 → exec .pbSep s = .next s) ∧
    (∀ t m', exec .pbSep s = .next t → t.record = some m' → completeFlag m' = completeFlag m) ∧
    (s.cfg.wf = true → decode s.cfg (.edge (0x100#11 ||| s.cfg.sepByte.setWidth 11)) = .ok .pbSep)

/-- R127: PB_END in each of the six states, its encoding, and `complete`. -/
def Obligations.PbEndActsByState : Prop :=
  ∀ (s : State) (m : Message), s.record = some m →
    (m.parserState.toNat ≤ 3 → exec .pbEnd s = .next s) ∧
    (m.parserState = 4#3 → m.writeField.toNat = s.cfg.numFields - 1 →
      exec .pbEnd s = .next { s with record := some { m with parserState := 5#3 } } ∧
      completeFlag { m with parserState := 5#3 } = true) ∧
    (m.parserState = 4#3 → m.writeField.toNat ≠ s.cfg.numFields - 1 → exec .pbEnd s = .next s) ∧
    (m.parserState = 5#3 → exec .pbEnd s = .next s) ∧
    (s.cfg.wf = true → decode s.cfg (.edge (0x100#11 ||| s.cfg.endByte.setWidth 11)) = .ok .pbEnd)

/-- R128 with R122, R123, R124: PB_DIGIT in each of the six states, its encoding, and `complete`. -/
def Obligations.PbDigitActsByState : Prop :=
  ∀ (s : State) (m : Message) (b : Byte), s.record = some m → 0x30 ≤ b.toNat ∧ b.toNat ≤ 0x39 →
    (m.parserState = 0#3 → exec (.pbDigit b) s = .next s) ∧
    (m.parserState = 1#3 → m.writeCounter.toNat < s.cfg.commandLength →
      ∃ buf, exec (.pbDigit b) s = .next { s with
          record := some { m with command := buf, writeCounter := BitVec.ofNat 8 (m.writeCounter.toNat + 1) } } ∧
        Memory.StoresOnly m.command buf m.writeCounter.toNat b) ∧
    (m.parserState = 1#3 → s.cfg.commandLength ≤ m.writeCounter.toNat → exec (.pbDigit b) s = .next s) ∧
    (m.parserState = 2#3 →
      exec (.pbDigit b) s = .next { s with
          record := some { m with source := BitVec.ofNat 8 ((m.source.toNat * 10 + (b.toNat - 0x30)) % 256) } }) ∧
    (m.parserState = 3#3 →
      exec (.pbDigit b) s = .next { s with
          record := some { m with dest := BitVec.ofNat 8 ((m.dest.toNat * 10 + (b.toNat - 0x30)) % 256) } }) ∧
    (m.parserState = 4#3 → m.writeCounter.toNat < s.cfg.fieldLength →
      ∀ old, m.fields[m.writeField.toNat]? = some old →
        ∃ buf, exec (.pbDigit b) s = .next { s with
            record := some { m with
              fields := m.fields.set m.writeField.toNat buf
              writeCounter := BitVec.ofNat 8 (m.writeCounter.toNat + 1) } } ∧
          Memory.StoresOnly old buf m.writeCounter.toNat b) ∧
    (m.parserState = 4#3 → s.cfg.fieldLength ≤ m.writeCounter.toNat → exec (.pbDigit b) s = .next s) ∧
    (m.parserState = 5#3 → exec (.pbDigit b) s = .next s) ∧
    (∀ t m', exec (.pbDigit b) s = .next t → t.record = some m' → completeFlag m' = completeFlag m) ∧
    (s.cfg.wf = true → decode s.cfg (.edge (0x100#11 ||| b.setWidth 11)) = .ok (.pbDigit b))

/-- R129 with R122, R123, R133: PB_OTHER in each of the six states, its encoding, and `complete`. The
spaces are in canonical form, which every step keeps. -/
def Obligations.PbOtherActsByState : Prop :=
  ∀ (s : State) (m : Message) (b : Byte), s.record = some m → Memory.wf m.command = true →
    (∀ buf ∈ m.fields, Memory.wf buf = true) → (Instr.pbOther b).wf s.cfg = true →
    (m.parserState = 0#3 → exec (.pbOther b) s = .next s) ∧
    (m.parserState = 1#3 → m.writeCounter.toNat < s.cfg.commandLength →
      ∃ buf, exec (.pbOther b) s = .next { s with
          record := some { m with command := buf, writeCounter := BitVec.ofNat 8 (m.writeCounter.toNat + 1) } } ∧
        Memory.StoresOnly m.command buf m.writeCounter.toNat b) ∧
    (m.parserState = 1#3 → s.cfg.commandLength ≤ m.writeCounter.toNat → exec (.pbOther b) s = .next s) ∧
    (m.parserState = 2#3 ∨ m.parserState = 3#3 → exec (.pbOther b) s = .next s) ∧
    (m.parserState = 4#3 → m.writeCounter.toNat < s.cfg.fieldLength →
      ∀ old, m.fields[m.writeField.toNat]? = some old →
        ∃ buf, exec (.pbOther b) s = .next { s with
            record := some { m with
              fields := m.fields.set m.writeField.toNat buf
              writeCounter := BitVec.ofNat 8 (m.writeCounter.toNat + 1) } } ∧
          Memory.StoresOnly old buf m.writeCounter.toNat b) ∧
    (m.parserState = 4#3 → s.cfg.fieldLength ≤ m.writeCounter.toNat → exec (.pbOther b) s = .next s) ∧
    (m.parserState = 5#3 → exec (.pbOther b) s = .next s) ∧
    (∀ t m', exec (.pbOther b) s = .next t → t.record = some m' → completeFlag m' = completeFlag m) ∧
    (s.cfg.wf = true → decode s.cfg (.edge (0x100#11 ||| b.setWidth 11)) = .ok (.pbOther b))

/-- R131: RESTART leaves exactly the state that INIT followed by PB_START gives. -/
def Obligations.RestartIsInitThenStart : Prop :=
  ∀ (s : State) (m : Message), s.record = some m → s.cfg.resyncMidFrame = true →
    1 ≤ m.parserState.toNat ∧ m.parserState.toNat ≤ 4 →
    ∃ t m', exec .init s = .next t ∧ exec .pbStart s = exec .pbStart t ∧
      exec .pbStart s = .next { s with record := some m' } ∧ m'.parserState = 1#3 ∧
      { m' with parserState := 0#3 }.Empty s.cfg

/-- R104: the return value of a `parse_byte` call, `complete` after the byte: true exactly when the byte
was the completing END_BYTE or the state was already DONE. -/
def Obligations.CompleteIsReturnValue : Prop :=
  ∀ (i : Instr) (s t : State) (m m' : Message), isByteOp i = true → s.record = some m → exec i s = .next t →
    t.record = some m' →
    (completeFlag m' = true ↔ m'.parserState = 5#3) ∧
    (completeFlag m' = true ↔
      m.parserState = 5#3 ∨
        (i = .pbEnd ∧ m.parserState = 4#3 ∧ m.writeField.toNat = s.cfg.numFields - 1))

/-- R123 and R28, the model's fault of log 8: content for a slot that is not there stops, and a record that
meets the invariant always has its slot. The byte is any, so the first part also speaks of operand terms no
word decodes to (log 12). -/
def Obligations.MissingSlotFaults : Prop :=
  ∀ (s : State) (m : Message), s.record = some m →
    (m.parserState = 4#3 → m.writeCounter.toNat < s.cfg.fieldLength → m.fields.length ≤ m.writeField.toNat →
      ∀ b : Byte, exec (.pbDigit b) s = .fault .noSuchSlot ∧ exec (.pbOther b) s = .fault .noSuchSlot) ∧
    (s.Inv → m.writeField.toNat < m.fields.length)

/-! ### Read operations -/

/-- R160: RD_FIELD shows the selected slot, its text length and no error. -/
def Obligations.RdFieldShowsSlot : Prop :=
  ∀ (s : State) (m : Message) (sel : Byte) (buf : Memory), s.record = some m → m.parserState.toNat ≤ 5 →
    sel.toNat < s.cfg.numFields → m.fields[sel.toNat]? = some buf →
    (∃ n lanes, exec (.rdField sel) s =
        .next { s with observed := some (.field false (BitVec.ofNat 8 n) lanes) } ∧
      Memory.HasTextLength buf s.cfg.fieldLength n ∧ Memory.ShownOn buf s.cfg.fieldLength lanes) ∧
    (s.cfg.wf = true → decode s.cfg (.read sel) = .ok (.rdField sel))

/-- R161: RD_FIELD_OOR shows `rd_err` = 1 and an empty view. -/
def Obligations.RdFieldOorShowsError : Prop :=
  ∀ (s : State) (m : Message) (sel : Byte), s.record = some m → m.parserState.toNat ≤ 5 →
    s.cfg.numFields ≤ sel.toNat →
    exec (.rdFieldOor sel) s =
      .next { s with observed := some (.field true 0x00#8 (List.replicate s.cfg.fieldLength 0x00#8)) } ∧
    (s.cfg.wf = true → decode s.cfg (.read sel) = .ok (.rdFieldOor sel))

/-- R162: RD_COMMAND shows the command space and its text length. -/
def Obligations.RdCommandShowsCommand : Prop :=
  ∀ (s : State) (m : Message), s.record = some m → m.parserState.toNat ≤ 5 →
    ∃ n lanes, exec .rdCommand s =
        .next { s with observed := some (.command (BitVec.ofNat 8 n) lanes) } ∧
      Memory.HasTextLength m.command s.cfg.commandLength n ∧
      Memory.ShownOn m.command s.cfg.commandLength lanes

/-- R163: RD_SOURCE shows `s.source`. -/
def Obligations.RdSourceShowsSource : Prop :=
  ∀ (s : State) (m : Message), s.record = some m → m.parserState.toNat ≤ 5 →
    exec .rdSource s = .next { s with observed := some (.source m.source) }

/-- R164: RD_DEST shows `s.dest`. -/
def Obligations.RdDestShowsDest : Prop :=
  ∀ (s : State) (m : Message), s.record = some m → m.parserState.toNat ≤ 5 →
    exec .rdDest s = .next { s with observed := some (.dest m.dest) }

/-- R165: RD_STATUS shows `complete`, the code of the parser state and both counters. -/
def Obligations.RdStatusShowsState : Prop :=
  ∀ (s : State) (m : Message), s.record = some m → m.parserState.toNat ≤ 5 →
    exec .rdStatus s = .next { s with
        observed := some (.status (decide (m.parserState = 5#3)) m.parserState m.writeCounter m.writeField) }

/-- R58: a read operation changes nothing but what the host has seen. -/
def Obligations.ReadsChangeOnlyTheView : Prop :=
  ∀ (i : Instr) (s t : State), isReadOp i = true → exec i s = .next t →
    ∃ o, t = { s with observed := some o }

/-- R225: up to the edge of INIT every port shows the old message, from the next cycle the empty one. A look
at a port is a step of its own (log 3), and what the host saw outlasts the edge after it (log 4). -/
def Obligations.ReadsShowOldMessageUntilInitEdge : Prop :=
  ∀ (s : State) (m : Message), s.Inv → s.record = some m →
    (∃ t, runProgram [.port .command, stmtInit] s = .next t ∧ t.observed = some (commandPort s.cfg m)) ∧
    (∃ t, runProgram [.port .source, stmtInit] s = .next t ∧ t.observed = some (.source m.source)) ∧
    (∃ t, runProgram [.port .dest, stmtInit] s = .next t ∧ t.observed = some (.dest m.dest)) ∧
    (∃ t, runProgram [.port .status, stmtInit] s = .next t ∧ t.observed = some (statusPort m)) ∧
    (∀ sel : Byte, ∃ t o, runProgram [.read sel, stmtInit] s = .next t ∧ fieldPort s.cfg sel m = .ok o ∧
      t.observed = some o) ∧
    (∃ t, runProgram [stmtInit, .port .command] s = .next t ∧
      t.observed = some (.command 0x00#8 (List.replicate s.cfg.commandLength 0x00#8))) ∧
    (∃ t, runProgram [stmtInit, .port .source] s = .next t ∧ t.observed = some (.source 0x00#8)) ∧
    (∃ t, runProgram [stmtInit, .port .dest] s = .next t ∧ t.observed = some (.dest 0x00#8)) ∧
    (∃ t, runProgram [stmtInit, .port .status] s = .next t ∧
      t.observed = some (.status false 0#3 0x00#8 0x00#8)) ∧
    (∀ sel : Byte, ∃ t, runProgram [stmtInit, .read sel] s = .next t ∧
      t.observed = some
        (.field (decide (s.cfg.numFields ≤ sel.toNat)) 0x00#8 (List.replicate s.cfg.fieldLength 0x00#8)))

/-- R53: the text length is the least index that holds 0x00, or the capacity; the text value is the bytes
before it. -/
def Obligations.TextLengthIsLeastZero : Prop :=
  ∀ (buf : Memory) (cap : Nat),
    Memory.HasTextLength buf cap (textLength buf cap) ∧
    (textValue buf cap).length = textLength buf cap ∧
    ∀ i, i < textLength buf cap → (textValue buf cap)[i]? = some (Memory.read buf i)

/-- R54: byte `i` of a space stands at bits `8i+7..8i` of its bus, which is `8*cap` bits wide. -/
def Obligations.BusLanesFollowByteOrder : Prop :=
  ∀ (buf : Memory) (cap : Nat),
    busValue (spaceBytes buf cap) < 2 ^ (8 * cap) ∧
    ∀ i, i < cap → busValue (spaceBytes buf cap) / 2 ^ (8 * i) % 256 = (Memory.read buf i).toNat

/-! ### Stops -/

/-- R35, R221: before the first RESET or INIT, a consumed byte and a read of any output fault; RESET and
INIT give the record its values. That an out-of-range read faults too is DEDUCED (log 5). -/
def Obligations.PowerUpStopsBytesAndReads : Prop :=
  ∀ s : State, s.record = none →
    (∀ i, isByteOp i = true ∨ isReadOp i = true → exec i s = .fault .noValue) ∧
    ∃ m, exec .reset s = .next { s with record := some m } ∧
      exec .init s = .next { s with record := some m } ∧ m.Empty s.cfg

/-- R22: codes 6 and 7 have no next state but the one RESET (R220) and INIT (R100) write in every state
(DEDUCED, log 6). -/
def Obligations.IllegalCodesStop : Prop :=
  ∀ (s : State) (m : Message), s.record = some m → 6 ≤ m.parserState.toNat →
    (∀ i, i ≠ .reset → i ≠ .init → exec i s = .fault .illegalParserState) ∧
    ∃ m', exec .reset s = .next { s with record := some m' } ∧
      exec .init s = .next { s with record := some m' } ∧ m'.Empty s.cfg

/-- R72, R200: once initialised, no control word, select or port stops the machine. -/
def Obligations.InitialisedMachineNeverStops : Prop :=
  ∀ (s : State) (m : Message), s.Inv → s.record = some m → ∃ t m', step s = .next t ∧ t.record = some m'

/-! ### Invariants and whole-machine rules -/

/-- R139: every step keeps the invariant of reachable states: the shape and canonical form of every byte
space, the legal codes, the counter ranges of R27 and R28, and blank bytes ahead of the cursor. -/
def Obligations.EveryStepKeepsInvariant : Prop :=
  ∀ s t : State, s.Inv → step s = .next t → t.Inv

/-- The state after reset, and hardware just powered up with any admitted configuration, meet the
invariant. -/
def Obligations.ResetAndPowerUpMeetInvariant : Prop :=
  State.reset.Inv ∧ ∀ cfg : Config, cfg.wf = true → (State.powerUp cfg).Inv

/-- R139: in every state reached from RESET or INIT by any sequence of operations the ranges of R27 and
R28 hold and the code is legal, whatever the state was before. -/
def Obligations.ReachableRecordsKeepRanges : Prop :=
  ∀ (s t : State) (x : Stimulus) (xs : List Stimulus), s.cfg.wf = true → x = stmtReset ∨ x = stmtInit →
    runProgram (x :: xs) s = .next t → ∃ m, t.record = some m ∧ m.Ranges t.cfg ∧ m.parserState.toNat ≤ 5

/-- R132: no step stores a marker byte in a buffer. -/
def Obligations.EveryStepKeepsMarkersOut : Prop :=
  ∀ s t : State, s.cfg.wf = true → s.MarkerFree → step s = .next t → t.MarkerFree

/-- The state after reset and any power-up state hold no marker byte. -/
def Obligations.ResetAndPowerUpHoldNoMarker : Prop :=
  State.reset.MarkerFree ∧ ∀ cfg : Config, (State.powerUp cfg).MarkerFree

/-- R30, R63, R228: no operation changes the configuration; and none but the step itself takes an input
off the host's stream (log 3). -/
def Obligations.ConfigurationNeverChanges : Prop :=
  ∀ (i : Instr) (s t : State), exec i s = .next t → t.cfg = s.cfg ∧ t.pending = s.pending

/-- R121, R106: the parser state moves only along the edges of the transition graph, and only RESET and
INIT lead to READING_START from another state. -/
def Obligations.ParserStateFollowsGraph : Prop :=
  ∀ (i : Instr) (s t : State) (m m' : Message), s.record = some m → exec i s = .next t → t.record = some m' →
    (i = .reset ∨ i = .init → m'.parserState = 0#3) ∧
    (i ≠ .reset → i ≠ .init →
      m'.parserState = m.parserState ∨
      (isByteOp i = true ∧ m.parserState.toNat ≤ 4 ∧ m'.parserState.toNat = m.parserState.toNat + 1) ∨
      (i = .pbStart ∧ s.cfg.resyncMidFrame = true ∧ 1 ≤ m.parserState.toNat ∧ m.parserState.toNat ≤ 4 ∧
        m'.parserState = 1#3))

/-- R130, R106: in DONE nothing but RESET and INIT changes the record, whatever the host presents and for
both values of RESYNC_MID_FRAME. -/
def Obligations.DoneIsTerminal : Prop :=
  ∀ (s : State) (m : Message) (xs : List Stimulus), s.Inv → s.record = some m → m.parserState = 5#3 →
    (∀ x ∈ xs, isClearEdge x = false) →
    ∃ t, runProgram xs s = .next t ∧ t.record = some m ∧ completeFlag m = true

/-- R61: the record after an operation, and what a read shows, depend on the record, the configuration
and the operation, and on nothing else. -/
def Obligations.NextRecordDependsOnRecordAndInput : Prop :=
  ∀ (i : Instr) (s₁ s₂ t₁ : State), s₁.cfg = s₂.cfg → s₁.record = s₂.record → exec i s₁ = .next t₁ →
    ∃ t₂, exec i s₂ = .next t₂ ∧ t₁.record = t₂.record ∧
      (isReadOp i = true → t₁.observed = t₂.observed)

/-! ### Runs over the input stream -/

/-- R124, R129, R55: content bytes of an address sub-field leave `D mod 256`, where `D` is the decimal
numeral of the digits among them, continued from the value so far; nothing else changes. -/
def Obligations.AddressDigitsFormDecimal : Prop :=
  ∀ (s : State) (m : Message) (bs : List Byte), s.cfg.wf = true → s.record = some m →
    contentOnly s.cfg bs = true →
    (m.parserState = 2#3 →
      runProgram (stmtText bs) s = .next { s with
          pending := []
          record := some { m with
            source := BitVec.ofNat 8 (m.source.toNat * 10 ^ (bs.filter isDigit).length + numeral (bs.filter isDigit)) } }) ∧
    (m.parserState = 3#3 →
      runProgram (stmtText bs) s = .next { s with
          pending := []
          record := some { m with
            dest := BitVec.ofNat 8 (m.dest.toNat * 10 ^ (bs.filter isDigit).length + numeral (bs.filter isDigit)) } })

/-- R135, R52, R122: the content bytes of a command are stored in arrival order from the cursor on, those
beyond COMMAND_LENGTH are dropped, and nothing else changes. For a command of non-zero bytes (R133) that
starts at the cursor 0 of a blank space, the text value is its prefix. -/
def Obligations.CommandBytesAreTruncated : Prop :=
  ∀ (s : State) (m : Message) (bs : List Byte), s.cfg.wf = true → s.record = some m → m.parserState = 1#3 →
    Memory.wf m.command = true → m.writeCounter.toNat ≤ s.cfg.commandLength → contentOnly s.cfg bs = true →
    ∃ buf, runProgram (stmtText bs) s = .next { s with
        pending := []
        record := some { m with
          command := buf
          writeCounter := BitVec.ofNat 8 (min s.cfg.commandLength (m.writeCounter.toNat + bs.length)) } } ∧
      (∀ i, Memory.read buf i =
        if m.writeCounter.toNat ≤ i ∧ i < min s.cfg.commandLength (m.writeCounter.toNat + bs.length)
        then bs.getD (i - m.writeCounter.toNat) 0x00#8 else Memory.read m.command i) ∧
      (m.writeCounter = 0x00#8 → m.command = [] → 0x00#8 ∉ bs →
        textValue buf s.cfg.commandLength = bs.take s.cfg.commandLength)

/-- R135, R52, R123: the content bytes of a payload field are stored in arrival order from the cursor on in
slot `write_field`, those beyond FIELD_LENGTH are dropped, and nothing else changes, no other slot
either. For a field of non-zero bytes (R133) that starts at the cursor 0 of a blank slot, the text value is
its prefix. -/
def Obligations.FieldBytesAreTruncated : Prop :=
  ∀ (s : State) (m : Message) (old : Memory) (bs : List Byte), s.cfg.wf = true → s.record = some m →
    m.parserState = 4#3 → m.fields[m.writeField.toNat]? = some old → Memory.wf old = true →
    m.writeCounter.toNat ≤ s.cfg.fieldLength → contentOnly s.cfg bs = true →
    ∃ buf, runProgram (stmtText bs) s = .next { s with
        pending := []
        record := some { m with
          fields := m.fields.set m.writeField.toNat buf
          writeCounter := BitVec.ofNat 8 (min s.cfg.fieldLength (m.writeCounter.toNat + bs.length)) } } ∧
      (∀ i, Memory.read buf i =
        if m.writeCounter.toNat ≤ i ∧ i < min s.cfg.fieldLength (m.writeCounter.toNat + bs.length)
        then bs.getD (i - m.writeCounter.toNat) 0x00#8 else Memory.read old i) ∧
      (m.writeCounter = 0x00#8 → old = [] → 0x00#8 ∉ bs →
        textValue buf s.cfg.fieldLength = bs.take s.cfg.fieldLength)

/-- R137: bytes other than START_BYTE in READING_START change nothing, and with RESYNC_MID_FRAME = 1 a
START_BYTE that cuts off a partial frame leaves what INIT and that START_BYTE alone would leave. -/
def Obligations.GarbageLeavesNoTrace : Prop :=
  (∀ (s : State) (m : Message) (bs : List Byte), s.cfg.wf = true → s.record = some m → m.parserState = 0#3 →
    s.cfg.startByte ∉ bs → runProgram (stmtText bs) s = .next { s with pending := [] }) ∧
  (∀ (s t : State) (m : Message) (xs : List Stimulus), s.cfg.wf = true → s.cfg.resyncMidFrame = true →
    runProgram xs s = .next t → t.record = some m →
    1 ≤ m.parserState.toNat ∧ m.parserState.toNat ≤ 4 →
    ∃ t₁ t₂, runProgram (xs ++ [stmtStart s.cfg]) s = .next t₁ ∧
      runProgram [stmtInit, stmtStart s.cfg] s = .next t₂ ∧ t₁.record = t₂.record)

/-- R138: while fewer separators come than the frame still needs, no byte string completes it, for both
values of RESYNC_MID_FRAME. -/
def Obligations.TooFewSeparatorsNeverComplete : Prop :=
  ∀ (s : State) (m : Message) (bs : List Byte), s.Inv → s.record = some m → m.parserState.toNat ≤ 4 →
    bs.count s.cfg.sepByte <
      (4 - max 1 m.parserState.toNat) + (s.cfg.numFields - 1 - m.writeField.toNat) →
    ∃ t m', runProgram (stmtText bs) s = .next t ∧ t.record = some m' ∧ completeFlag m' = false

/-- R134: after INIT, the bytes of a well-formed frame of non-zero content, with only IDLE edges in
between, complete exactly on the last byte, and the message reproduces the frame. -/
def Obligations.WellFormedFrameCompletesOnce : Prop :=
  ∀ (s : State) (f : Frame) (xs : List Stimulus), s.cfg.wf = true → f.wf s.cfg = true →
    0x00#8 ∉ f.command → (∀ g ∈ f.fields, 0x00#8 ∉ g) → numeral f.source ≤ 255 → numeral f.dest ≤ 255 →
    (xs.filter fun x => !isIdleEdge x) = stmtFrame s.cfg f →
    (∀ n, n ≤ xs.length → ∃ t m, runProgram (stmtInit :: xs.take n) s = .next t ∧ t.record = some m ∧
      (completeFlag m = true ↔
        ((xs.take n).filter fun x => !isIdleEdge x).length = (f.bytes s.cfg).length)) ∧
    ∃ t m, runProgram (stmtInit :: xs) s = .next t ∧ t.record = some m ∧
      textValue m.command s.cfg.commandLength = f.command ∧
      m.source.toNat = numeral f.source ∧ m.dest.toNat = numeral f.dest ∧
      m.fields.map (fun buf => textValue buf s.cfg.fieldLength) = f.fields

/-- R136, R135, R202: a frame with more than NUM_FIELDS field groups completes on its END_BYTE and not
before; each slot holds the prefix of its group, the command its prefix, and the extra groups are gone. -/
def Obligations.ExtraFieldsAreDiscarded : Prop :=
  ∀ (s : State) (f : Frame), s.cfg.wf = true → f.grammatical s.cfg = true →
    s.cfg.numFields < f.fields.length →
    (∃ t m, runProgram (stmtInit :: (stmtFrame s.cfg f).dropLast) s = .next t ∧ t.record = some m ∧
      completeFlag m = false) ∧
    ∃ t m, runProgram (stmtInit :: stmtFrame s.cfg f) s = .next t ∧ t.record = some m ∧
      completeFlag m = true ∧ m.fields.length = s.cfg.numFields ∧
      Memory.Spells m.command (f.command.take s.cfg.commandLength) ∧
      m.source = BitVec.ofNat 8 (numeral f.source) ∧ m.dest = BitVec.ofNat 8 (numeral f.dest) ∧
      ∀ (j : Nat) (buf : Memory) (g : List Byte), m.fields[j]? = some buf → f.fields[j]? = some g →
        Memory.Spells buf (g.take s.cfg.fieldLength)

/-- R140: START_BYTE followed at once by SEP_BYTE leaves an empty command and goes on in READING_SOURCE. -/
def Obligations.EmptyCommandContinues : Prop :=
  ∀ s : State, s.cfg.wf = true →
    ∃ t m, runProgram [stmtInit, stmtStart s.cfg, stmtSep s.cfg] s = .next t ∧ t.record = some m ∧
      textValue m.command s.cfg.commandLength = [] ∧ textLengthOut m.command s.cfg.commandLength = 0x00#8 ∧
      m.parserState = 2#3 ∧ { m with parserState := 0#3 }.Empty s.cfg

/-- R78: with the default capacities a well-formed frame has at least 7 bytes, and at most 117 when its
address groups have at most 3 digits. -/
def Obligations.FrameLengthBounds : Prop :=
  ∀ (cfg : Config) (f : Frame), cfg.commandLength = 8 → cfg.fieldLength = 32 → cfg.numFields = 3 →
    f.wf cfg = true →
    7 ≤ (f.bytes cfg).length ∧
    (f.source.length ≤ 3 → f.dest.length ≤ 3 → (f.bytes cfg).length ≤ 117)
end

