-- ==== Sys2Proof/Laws/State.lean ====
section
/-! SUPPORT. One lemma per field per update of the record and of the state, so that no later proof unfolds an update. -/

namespace Sys2Proof.Machine

@[simp] theorem Message.goto_parserState (m : Message) (p : ParserState) : (m.goto p).parserState = p.code := rfl
@[simp] theorem Message.goto_command (m : Message) (p : ParserState) : (m.goto p).command = m.command := rfl
@[simp] theorem Message.goto_source (m : Message) (p : ParserState) : (m.goto p).source = m.source := rfl
@[simp] theorem Message.goto_dest (m : Message) (p : ParserState) : (m.goto p).dest = m.dest := rfl
@[simp] theorem Message.goto_fields (m : Message) (p : ParserState) : (m.goto p).fields = m.fields := rfl
@[simp] theorem Message.goto_writeCounter (m : Message) (p : ParserState) : (m.goto p).writeCounter = m.writeCounter := rfl
@[simp] theorem Message.goto_writeField (m : Message) (p : ParserState) : (m.goto p).writeField = m.writeField := rfl

@[simp] theorem Message.setCounter_parserState (m : Message) (v : Byte) : (m.setCounter v).parserState = m.parserState := rfl
@[simp] theorem Message.setCounter_command (m : Message) (v : Byte) : (m.setCounter v).command = m.command := rfl
@[simp] theorem Message.setCounter_source (m : Message) (v : Byte) : (m.setCounter v).source = m.source := rfl
@[simp] theorem Message.setCounter_dest (m : Message) (v : Byte) : (m.setCounter v).dest = m.dest := rfl
@[simp] theorem Message.setCounter_fields (m : Message) (v : Byte) : (m.setCounter v).fields = m.fields := rfl
@[simp] theorem Message.setCounter_writeCounter (m : Message) (v : Byte) : (m.setCounter v).writeCounter = v := rfl
@[simp] theorem Message.setCounter_writeField (m : Message) (v : Byte) : (m.setCounter v).writeField = m.writeField := rfl

@[simp] theorem Message.setSlot_parserState (m : Message) (v : Byte) : (m.setSlot v).parserState = m.parserState := rfl
@[simp] theorem Message.setSlot_command (m : Message) (v : Byte) : (m.setSlot v).command = m.command := rfl
@[simp] theorem Message.setSlot_source (m : Message) (v : Byte) : (m.setSlot v).source = m.source := rfl
@[simp] theorem Message.setSlot_dest (m : Message) (v : Byte) : (m.setSlot v).dest = m.dest := rfl
@[simp] theorem Message.setSlot_fields (m : Message) (v : Byte) : (m.setSlot v).fields = m.fields := rfl
@[simp] theorem Message.setSlot_writeCounter (m : Message) (v : Byte) : (m.setSlot v).writeCounter = m.writeCounter := rfl
@[simp] theorem Message.setSlot_writeField (m : Message) (v : Byte) : (m.setSlot v).writeField = v := rfl

@[simp] theorem Message.setSource_parserState (m : Message) (v : Byte) : (m.setSource v).parserState = m.parserState := rfl
@[simp] theorem Message.setSource_command (m : Message) (v : Byte) : (m.setSource v).command = m.command := rfl
@[simp] theorem Message.setSource_source (m : Message) (v : Byte) : (m.setSource v).source = v := rfl
@[simp] theorem Message.setSource_dest (m : Message) (v : Byte) : (m.setSource v).dest = m.dest := rfl
@[simp] theorem Message.setSource_fields (m : Message) (v : Byte) : (m.setSource v).fields = m.fields := rfl
@[simp] theorem Message.setSource_writeCounter (m : Message) (v : Byte) : (m.setSource v).writeCounter = m.writeCounter := rfl
@[simp] theorem Message.setSource_writeField (m : Message) (v : Byte) : (m.setSource v).writeField = m.writeField := rfl

@[simp] theorem Message.setDest_parserState (m : Message) (v : Byte) : (m.setDest v).parserState = m.parserState := rfl
@[simp] theorem Message.setDest_command (m : Message) (v : Byte) : (m.setDest v).command = m.command := rfl
@[simp] theorem Message.setDest_source (m : Message) (v : Byte) : (m.setDest v).source = m.source := rfl
@[simp] theorem Message.setDest_dest (m : Message) (v : Byte) : (m.setDest v).dest = v := rfl
@[simp] theorem Message.setDest_fields (m : Message) (v : Byte) : (m.setDest v).fields = m.fields := rfl
@[simp] theorem Message.setDest_writeCounter (m : Message) (v : Byte) : (m.setDest v).writeCounter = m.writeCounter := rfl
@[simp] theorem Message.setDest_writeField (m : Message) (v : Byte) : (m.setDest v).writeField = m.writeField := rfl

@[simp] theorem Message.setCommand_parserState (m : Message) (buf : Memory) : (m.setCommand buf).parserState = m.parserState := rfl
@[simp] theorem Message.setCommand_command (m : Message) (buf : Memory) : (m.setCommand buf).command = buf := rfl
@[simp] theorem Message.setCommand_source (m : Message) (buf : Memory) : (m.setCommand buf).source = m.source := rfl
@[simp] theorem Message.setCommand_dest (m : Message) (buf : Memory) : (m.setCommand buf).dest = m.dest := rfl
@[simp] theorem Message.setCommand_fields (m : Message) (buf : Memory) : (m.setCommand buf).fields = m.fields := rfl
@[simp] theorem Message.setCommand_writeCounter (m : Message) (buf : Memory) : (m.setCommand buf).writeCounter = m.writeCounter := rfl
@[simp] theorem Message.setCommand_writeField (m : Message) (buf : Memory) : (m.setCommand buf).writeField = m.writeField := rfl

@[simp] theorem Message.setField_parserState (m : Message) (j : Nat) (buf : Memory) : (m.setField j buf).parserState = m.parserState := rfl
@[simp] theorem Message.setField_command (m : Message) (j : Nat) (buf : Memory) : (m.setField j buf).command = m.command := rfl
@[simp] theorem Message.setField_source (m : Message) (j : Nat) (buf : Memory) : (m.setField j buf).source = m.source := rfl
@[simp] theorem Message.setField_dest (m : Message) (j : Nat) (buf : Memory) : (m.setField j buf).dest = m.dest := rfl
@[simp] theorem Message.setField_fields (m : Message) (j : Nat) (buf : Memory) : (m.setField j buf).fields = m.fields.set j buf := rfl
@[simp] theorem Message.setField_writeCounter (m : Message) (j : Nat) (buf : Memory) : (m.setField j buf).writeCounter = m.writeCounter := rfl
@[simp] theorem Message.setField_writeField (m : Message) (j : Nat) (buf : Memory) : (m.setField j buf).writeField = m.writeField := rfl

@[simp] theorem State.setRecord_cfg (s : State) (m : Message) : (s.setRecord m).cfg = s.cfg := rfl
@[simp] theorem State.setRecord_record (s : State) (m : Message) : (s.setRecord m).record = some m := rfl
@[simp] theorem State.setRecord_pending (s : State) (m : Message) : (s.setRecord m).pending = s.pending := rfl
@[simp] theorem State.setRecord_observed (s : State) (m : Message) : (s.setRecord m).observed = s.observed := rfl

@[simp] theorem State.observe_cfg (s : State) (o : Observation) : (s.observe o).cfg = s.cfg := rfl
@[simp] theorem State.observe_record (s : State) (o : Observation) : (s.observe o).record = s.record := rfl
@[simp] theorem State.observe_pending (s : State) (o : Observation) : (s.observe o).pending = s.pending := rfl
@[simp] theorem State.observe_observed (s : State) (o : Observation) : (s.observe o).observed = some o := rfl

@[simp] theorem State.setPending_cfg (s : State) (xs : List Stimulus) : (s.setPending xs).cfg = s.cfg := rfl
@[simp] theorem State.setPending_record (s : State) (xs : List Stimulus) : (s.setPending xs).record = s.record := rfl
@[simp] theorem State.setPending_pending (s : State) (xs : List Stimulus) : (s.setPending xs).pending = xs := rfl
@[simp] theorem State.setPending_observed (s : State) (xs : List Stimulus) : (s.setPending xs).observed = s.observed := rfl

@[simp] theorem State.advance_cfg (s : State) : (s.advance).cfg = s.cfg := rfl
@[simp] theorem State.advance_record (s : State) : (s.advance).record = s.record := rfl
@[simp] theorem State.advance_pending (s : State) : (s.advance).pending = s.pending.tail := rfl
@[simp] theorem State.advance_observed (s : State) : (s.advance).observed = s.observed := rfl

@[simp] theorem State.present_cfg (s : State) (x : Stimulus) : (s.present x).cfg = s.cfg := rfl
@[simp] theorem State.present_record (s : State) (x : Stimulus) : (s.present x).record = s.record := rfl
@[simp] theorem State.present_pending (s : State) (x : Stimulus) : (s.present x).pending = x :: s.pending := rfl
@[simp] theorem State.present_observed (s : State) (x : Stimulus) : (s.present x).observed = s.observed := rfl

@[simp] theorem clearRecord_parserState (cfg : Config) : (clearRecord cfg).parserState = 0#3 := rfl
@[simp] theorem clearRecord_command (cfg : Config) : (clearRecord cfg).command = [] := rfl
@[simp] theorem clearRecord_source (cfg : Config) : (clearRecord cfg).source = 0#8 := rfl
@[simp] theorem clearRecord_dest (cfg : Config) : (clearRecord cfg).dest = 0#8 := rfl
@[simp] theorem clearRecord_fields (cfg : Config) : (clearRecord cfg).fields = List.replicate cfg.numFields [] := rfl
@[simp] theorem clearRecord_writeCounter (cfg : Config) : (clearRecord cfg).writeCounter = 0#8 := rfl
@[simp] theorem clearRecord_writeField (cfg : Config) : (clearRecord cfg).writeField = 0#8 := rfl

@[simp] theorem restart_parserState (cfg : Config) : (restart cfg).parserState = 1#3 := rfl
@[simp] theorem restart_command (cfg : Config) : (restart cfg).command = [] := rfl
@[simp] theorem restart_source (cfg : Config) : (restart cfg).source = 0#8 := rfl
@[simp] theorem restart_dest (cfg : Config) : (restart cfg).dest = 0#8 := rfl
@[simp] theorem restart_fields (cfg : Config) : (restart cfg).fields = List.replicate cfg.numFields [] := rfl
@[simp] theorem restart_writeCounter (cfg : Config) : (restart cfg).writeCounter = 0#8 := rfl
@[simp] theorem restart_writeField (cfg : Config) : (restart cfg).writeField = 0#8 := rfl

/-- What INIT and RESET write is the record of R34. -/
theorem clearRecord_eq_fresh (cfg : Config) : clearRecord cfg = Message.fresh cfg := rfl

/-- Writing back the record that is there changes nothing: a discarded byte. -/
theorem State.setRecord_self (s : State) (m : Message) (h : s.record = some m) : s.setRecord m = s := by
  cases s; simp_all [State.setRecord]

end Sys2Proof.Machine
end

