-- ==== Sys2Proof/Laws/Memory.lean ====
section
/-! SUPPORT. The byte spaces: read after write, the canonical form kept by every write, and equal reads make
equal spaces. -/

namespace Sys2Proof.Machine

@[simp] theorem Memory.read_nil (i : Nat) : Memory.read [] i = 0#8 := rfl

@[simp] theorem Memory.wf_nil : Memory.wf [] = true := rfl

@[simp] theorem Memory.below_nil (n : Nat) : Memory.below [] n = true := rfl

theorem Memory.read_cons (k i : Nat) (v : Byte) (rest : Memory) :
    Memory.read ((k, v) :: rest) i = if i = k then v else Memory.read rest i := rfl

theorem Memory.wf_cons (k : Nat) (v : Byte) (rest : Memory) :
    Memory.wf ((k, v) :: rest) = true ↔ (∀ c ∈ rest, k < c.1) ∧ v ≠ 0#8 ∧ Memory.wf rest = true := by
  simp only [Memory.wf, Memory.blank, List.pairwise_cons, List.all_cons, Bool.and_eq_true, decide_eq_true_eq,
    bne_iff_ne]
  tauto

/-- The entry of a byte space below `n` at its head. -/
theorem Memory.below_cons (k n : Nat) (v : Byte) (rest : Memory) :
    Memory.below ((k, v) :: rest) n = true ↔ k < n ∧ Memory.below rest n = true := by
  simp [Memory.below]

theorem Memory.below_iff (buf : Memory) (n : Nat) : Memory.below buf n = true ↔ ∀ c ∈ buf, c.1 < n := by
  simp [Memory.below]

theorem Memory.below_mono {buf : Memory} {n k : Nat} (h : Memory.below buf n = true) (hk : n ≤ k) :
    Memory.below buf k = true := by
  rw [Memory.below_iff] at *
  exact fun c hc => lt_of_lt_of_le (h c hc) hk

/-- An index that no entry has reads as blank. -/
theorem Memory.read_eq_blank {buf : Memory} {i : Nat} (h : ∀ c ∈ buf, c.1 ≠ i) : Memory.read buf i = 0#8 := by
  induction buf with
  | nil => rfl
  | cons c rest ih =>
    obtain ⟨k, v⟩ := c
    have hk : k ≠ i := h (k, v) (by simp)
    rw [Memory.read_cons, if_neg (Ne.symm hk)]
    exact ih fun d hd => h d (by simp [hd])

/-- Above what is listed, a space is blank. -/
theorem Memory.read_of_below {buf : Memory} {n i : Nat} (h : Memory.below buf n = true) (hi : n ≤ i) :
    Memory.read buf i = 0#8 := by
  rw [Memory.below_iff] at h
  exact Memory.read_eq_blank fun c hc => by have := h c hc; omega

/-- A write leaves every other byte alone, in any space. -/
theorem Memory.read_write_of_ne (buf : Memory) {i a : Nat} (v : Byte) (h : a ≠ i) :
    Memory.read (Memory.write buf i v) a = Memory.read buf a := by
  induction buf with
  | nil => by_cases hv : v = 0#8 <;> simp [Memory.write, Memory.blank, Memory.read_cons, hv, h]
  | cons c rest ih =>
    obtain ⟨k, b⟩ := c
    by_cases hlt : i < k
    · by_cases hv : v = 0#8 <;> simp [Memory.write, Memory.blank, Memory.read_cons, hlt, hv, h]
    · by_cases heq : i = k
      · subst heq
        by_cases hv : v = 0#8 <;> simp [Memory.write, Memory.blank, Memory.read_cons, hv, h]
      · simp [Memory.write, Memory.read_cons, hlt, heq, ih]

/-- A write that is not blank is read back, in any space. -/
theorem Memory.read_write_of_ne_blank (buf : Memory) (i : Nat) {v : Byte} (hv : v ≠ 0#8) :
    Memory.read (Memory.write buf i v) i = v := by
  induction buf with
  | nil => simp [Memory.write, Memory.blank, Memory.read_cons, hv]
  | cons c rest ih =>
    obtain ⟨k, b⟩ := c
    by_cases hlt : i < k
    · simp [Memory.write, Memory.blank, Memory.read_cons, hlt, hv]
    · by_cases heq : i = k
      · simp [Memory.write, Memory.blank, Memory.read_cons, heq, hv]
      · simp [Memory.write, Memory.read_cons, hlt, heq, ih]

/-- In canonical form every write is read back. -/
theorem Memory.read_write_same {buf : Memory} (h : Memory.wf buf = true) (i : Nat) (v : Byte) :
    Memory.read (Memory.write buf i v) i = v := by
  by_cases hv : v = 0#8
  · subst hv
    induction buf with
    | nil => rfl
    | cons c rest ih =>
      obtain ⟨k, b⟩ := c
      obtain ⟨hk, -, hr⟩ := (Memory.wf_cons k b rest).1 h
      by_cases hlt : i < k
      · have hne : i ≠ k := by omega
        simp only [Memory.write, Memory.blank, hlt, if_true, Memory.read_cons, hne, if_false]
        exact Memory.read_eq_blank fun c hc => by have := hk c hc; omega
      · by_cases heq : i = k
        · subst heq
          simp only [Memory.write, Memory.blank, lt_irrefl, if_true, if_false]
          exact Memory.read_eq_blank fun c hc => by have := hk c hc; omega
        · simp [Memory.write, Memory.read_cons, hlt, heq, ih hr]
  · exact Memory.read_write_of_ne_blank buf i hv

/-- What a write can list: the entry written, or one that was there. -/
theorem Memory.mem_write {buf : Memory} {i : Nat} {v : Byte} {c : Host.Cell}
    (h : c ∈ Memory.write buf i v) : (c = (i, v) ∧ v ≠ 0#8) ∨ c ∈ buf := by
  induction buf with
  | nil => by_cases hv : v = 0#8 <;> simp_all [Memory.write, Memory.blank]
  | cons d rest ih =>
    obtain ⟨k, b⟩ := d
    by_cases hlt : i < k
    · by_cases hv : v = 0#8
      · simp only [Memory.write, Memory.blank, hlt, hv, if_true] at h
        exact .inr h
      · simp only [Memory.write, Memory.blank, hlt, hv, if_true, if_false, List.mem_cons] at h
        rcases h with h | h | h <;> simp_all
    · by_cases heq : i = k
      · by_cases hv : v = 0#8
        · simp only [Memory.write, Memory.blank, lt_irrefl, heq, hv, if_true, if_false] at h
          exact .inr (List.mem_cons_of_mem _ h)
        · simp only [Memory.write, Memory.blank, lt_irrefl, heq, hv, if_true, if_false, List.mem_cons] at h
          rcases h with h | h <;> simp_all
      · simp only [Memory.write, hlt, heq, if_false, List.mem_cons] at h
        rcases h with h | h
        · exact .inr (by simp [h])
        · exact (ih h).imp_right (List.mem_cons_of_mem _)

/-- Every write keeps the canonical form. -/
theorem Memory.write_wf {buf : Memory} (h : Memory.wf buf = true) (i : Nat) (v : Byte) :
    Memory.wf (Memory.write buf i v) = true := by
  induction buf with
  | nil =>
    by_cases hv : v = 0#8
    · simp [Memory.write, Memory.blank, hv]
    · simp [Memory.write, Memory.blank, Memory.wf_cons, hv]
  | cons c rest ih =>
    obtain ⟨k, b⟩ := c
    obtain ⟨hk, hb, hr⟩ := (Memory.wf_cons k b rest).1 h
    by_cases hlt : i < k
    · by_cases hv : v = 0#8
      · simpa [Memory.write, Memory.blank, hlt, hv] using h
      · simp only [Memory.write, Memory.blank, hlt, hv, if_true, if_false]
        refine (Memory.wf_cons _ _ _).2 ⟨fun c hc => ?_, hv, h⟩
        rcases List.mem_cons.1 hc with hc | hc
        · simpa [hc] using hlt
        · exact hlt.trans (hk c hc)
    · by_cases heq : i = k
      · subst heq
        by_cases hv : v = 0#8
        · simpa [Memory.write, Memory.blank, hv] using hr
        · simp only [Memory.write, Memory.blank, lt_irrefl, hv, if_true, if_false]
          exact (Memory.wf_cons _ _ _).2 ⟨hk, hv, hr⟩
      · simp only [Memory.write, hlt, heq, if_false]
        refine (Memory.wf_cons _ _ _).2 ⟨fun c hc => ?_, hb, ih hr⟩
        rcases Memory.mem_write hc with ⟨hc, -⟩ | hc
        · simp only [hc]; omega
        · exact hk c hc

/-- A write below `n` keeps a space below `n`. -/
theorem Memory.write_below {buf : Memory} {n i : Nat} (h : Memory.below buf n = true) (hi : i < n) (v : Byte) :
    Memory.below (Memory.write buf i v) n = true := by
  rw [Memory.below_iff] at *
  intro c hc
  rcases Memory.mem_write hc with ⟨hc, -⟩ | hc
  · simpa [hc] using hi
  · exact h c hc

/-- A write in a canonical space, said with `Memory.StoresOnly`'s two clauses. -/
theorem Memory.write_reads {buf : Memory} (h : Memory.wf buf = true) (i a : Nat) (v : Byte) :
    Memory.read (Memory.write buf i v) a = if a = i then v else Memory.read buf a := by
  by_cases ha : a = i
  · subst ha; simp [Memory.read_write_same h]
  · simp [Memory.read_write_of_ne buf v ha, ha]

/-- Two canonical spaces that read alike are equal. -/
theorem Memory.ext_of_reads {x y : Memory} (hx : Memory.wf x = true) (hy : Memory.wf y = true)
    (h : ∀ i, Memory.read x i = Memory.read y i) : x = y := by
  induction x generalizing y with
  | nil =>
    cases y with
    | nil => rfl
    | cons d ys =>
      obtain ⟨l, w⟩ := d
      have := h l
      simp [Memory.read_cons] at this
      exact absurd this.symm ((Memory.wf_cons l w ys).1 hy).2.1
  | cons c xs ih =>
    obtain ⟨k, v⟩ := c
    obtain ⟨hk, hv, hxs⟩ := (Memory.wf_cons k v xs).1 hx
    have hkx : Memory.read ((k, v) :: xs) k = v := by simp [Memory.read_cons]
    cases y with
    | nil => exact absurd (hkx.symm.trans (h k)) (by simpa using hv)
    | cons d ys =>
      obtain ⟨l, w⟩ := d
      obtain ⟨hl, hw, hys⟩ := (Memory.wf_cons l w ys).1 hy
      have hly : Memory.read ((l, w) :: ys) l = w := by simp [Memory.read_cons]
      have hkl : k = l := by
        rcases lt_trichotomy k l with hlt | heq | hgt
        · refine absurd (hkx.symm.trans ((h k).trans (Memory.read_eq_blank ?_))) hv
          intro c hc
          rcases List.mem_cons.1 hc with hc | hc
          · simp only [hc]; omega
          · have := hl c hc; omega
        · exact heq
        · refine absurd (hly.symm.trans ((h l).symm.trans (Memory.read_eq_blank ?_))) hw
          intro c hc
          rcases List.mem_cons.1 hc with hc | hc
          · simp only [hc]; omega
          · have := hk c hc; omega
      subst hkl
      have hvw : v = w := by rw [← hkx, h k, hly]
      subst hvw
      congr 1
      refine ih hxs hys fun i => ?_
      by_cases hi : i = k
      · subst hi
        rw [Memory.read_eq_blank fun c hc => by have := hk c hc; omega,
          Memory.read_eq_blank fun c hc => by have := hl c hc; omega]
      · simpa [Memory.read_cons, hi] using h i

end Sys2Proof.Machine
end

