-- ==== Sys2Proof/Laws/Ops.lean ====
section
/-! SUPPORT. One lemma per shared operation that says once everything it can do. -/

namespace Sys2Proof.Machine

@[simp] theorem ParserState.ofCode_code (p : ParserState) : ParserState.ofCode p.code = some p := by
  cases p <;> rfl

/-- The code of the state a code stands for is that code. -/
theorem ParserState.code_of_ofCode {c : BitVec 3} {p : ParserState} (h : ParserState.ofCode c = some p) :
    p.code = c := by
  revert c p; decide

/-- Codes 0 to 5 stand for a state, 6 and 7 for none. -/
theorem ParserState.ofCode_eq_none_iff (c : BitVec 3) : ParserState.ofCode c = none ↔ 5 < c.toNat := by
  revert c; decide

theorem ParserState.code_injective {p q : ParserState} (h : p.code = q.code) : p = q := by
  have := congrArg ParserState.ofCode h
  simpa using this

/-- A record is found exactly when there is one and its code is legal. -/
theorem State.current_eq_ok_iff (s : State) (p : ParserState) (m : Message) :
    s.current = .ok (p, m) ↔ s.record = some m ∧ m.parserState = p.code := by
  constructor
  · intro h
    unfold State.current at h
    split at h
    · cases h
    · split at h
      · cases h
      · cases h
        exact ⟨by assumption, (ParserState.code_of_ofCode (by assumption)).symm⟩
  · rintro ⟨hr, hp⟩
    simp [State.current, hr, hp]

theorem State.current_of_record {s : State} {m : Message} {p : ParserState} (hr : s.record = some m)
    (hp : m.parserState = p.code) : s.current = .ok (p, m) := (s.current_eq_ok_iff p m).2 ⟨hr, hp⟩

theorem State.current_powerUp {s : State} (hr : s.record = none) : s.current = .error .noValue := by
  simp [State.current, hr]

theorem State.current_illegal {s : State} {m : Message} (hr : s.record = some m) (hc : 5 < m.parserState.toNat) :
    s.current = .error .illegalParserState := by
  simp [State.current, hr, (ParserState.ofCode_eq_none_iff _).2 hc]

/-- A consumed byte has a next state exactly when a record is found and its rule gives the record after. -/
theorem consume_eq_next_iff (s t : State) (rule : ParserState → Message → Except Fault Message) :
    consume s rule = .next t ↔
      ∃ (p : ParserState) (m m' : Message), s.record = some m ∧ m.parserState = p.code ∧ rule p m = .ok m' ∧ t = s.setRecord m' := by
  unfold consume
  cases hc : s.current with
  | error e =>
    simp only [reduceCtorEq, false_iff, not_exists]
    rintro p m m' ⟨hr, hp, -, -⟩
    rw [State.current_of_record hr hp] at hc
    cases hc
  | ok x =>
    obtain ⟨p, m⟩ := x
    obtain ⟨hr, hp⟩ := (s.current_eq_ok_iff p m).1 hc
    cases hm : rule p m with
    | error e =>
      simp only [hm, reduceCtorEq, false_iff, not_exists]
      rintro q n n' ⟨hr', hq, hn, -⟩
      rw [hr] at hr'
      cases hr'
      cases ParserState.code_injective (hp.symm.trans hq)
      rw [hm] at hn
      cases hn
    | ok m' =>
      simp only [hm, Host.Outcome.next.injEq]
      constructor
      · rintro rfl; exact ⟨p, m, m', hr, hp, hm, rfl⟩
      · rintro ⟨q, n, n', hr', hq, hn, rfl⟩
        rw [hr] at hr'
        cases hr'
        cases ParserState.code_injective (hp.symm.trans hq)
        rw [hm] at hn
        cases hn
        rfl

/-- A consumed byte in a record whose rule succeeds. -/
theorem consume_of_ok {s : State} {m m' : Message} {p : ParserState}
    {rule : ParserState → Message → Except Fault Message} (hr : s.record = some m) (hp : m.parserState = p.code)
    (hm : rule p m = .ok m') : consume s rule = .next (s.setRecord m') :=
  (consume_eq_next_iff _ _ _).2 ⟨p, m, m', hr, hp, hm, rfl⟩

/-- A discarded byte leaves the whole state as it was. -/
theorem consume_of_discard {s : State} {m : Message} {p : ParserState}
    {rule : ParserState → Message → Except Fault Message} (hr : s.record = some m) (hp : m.parserState = p.code)
    (hm : rule p m = .ok m) : consume s rule = .next s := by
  rw [consume_of_ok hr hp hm, State.setRecord_self s m hr]

/-- A read operation has a next state exactly when a record is found and the port shows something. -/
theorem readPort_eq_next_iff (s t : State) (port : Message → Except Fault Observation) :
    readPort s port = .next t ↔
      ∃ (p : ParserState) (m : Message) (o : Observation), s.record = some m ∧ m.parserState = p.code ∧ port m = .ok o ∧ t = s.observe o := by
  unfold readPort
  cases hc : s.current with
  | error e =>
    simp only [reduceCtorEq, false_iff, not_exists]
    rintro p m o ⟨hr, hp, -, -⟩
    rw [State.current_of_record hr hp] at hc
    cases hc
  | ok x =>
    obtain ⟨p, m⟩ := x
    obtain ⟨hr, hp⟩ := (s.current_eq_ok_iff p m).1 hc
    cases hm : port m with
    | error e =>
      simp only [hm, reduceCtorEq, false_iff, not_exists]
      rintro q n o ⟨hr', -, hn, -⟩
      rw [hr] at hr'
      cases hr'
      rw [hm] at hn
      cases hn
    | ok o =>
      simp only [hm, Host.Outcome.next.injEq]
      constructor
      · rintro rfl; exact ⟨p, m, o, hr, hp, hm, rfl⟩
      · rintro ⟨q, n, o', hr', -, hn, rfl⟩
        rw [hr] at hr'
        cases hr'
        rw [hm] at hn
        cases hn
        rfl

/-- A consumed byte is never refused. -/
theorem consume_ne_refused (s : State) (rule : ParserState → Message → Except Fault Message) (r : Refusal) :
    consume s rule ≠ .refused r := by
  unfold consume
  repeat' split
  all_goals simp

theorem accCommand_room {cfg : Config} {m : Message} (b : Byte) (h : m.writeCounter.toNat < cfg.commandLength) :
    accCommand cfg m b =
      (m.setCommand (Memory.write m.command m.writeCounter.toNat b)).setCounter (m.writeCounter + 1#8) := by
  simp [accCommand, h]

theorem accCommand_full {cfg : Config} {m : Message} (b : Byte) (h : cfg.commandLength ≤ m.writeCounter.toNat) :
    accCommand cfg m b = m := by
  simp [accCommand, Nat.not_lt.2 h]

theorem accField_room {cfg : Config} {m : Message} {buf : Memory} (b : Byte)
    (h : m.writeCounter.toNat < cfg.fieldLength) (hb : m.fields[m.writeField.toNat]? = some buf) :
    accField cfg m b =
      .ok ((m.setField m.writeField.toNat (Memory.write buf m.writeCounter.toNat b)).setCounter
        (m.writeCounter + 1#8)) := by
  simp [accField, h, hb]

theorem accField_full {cfg : Config} {m : Message} (b : Byte) (h : cfg.fieldLength ≤ m.writeCounter.toNat) :
    accField cfg m b = .ok m := by
  simp [accField, Nat.not_lt.2 h]

/-- Everything ACC_FIELD can do when it answers a record. -/
theorem accField_eq_ok {cfg : Config} {m m' : Message} {b : Byte} (h : accField cfg m b = .ok m') :
    (m.writeCounter.toNat < cfg.fieldLength ∧ ∃ buf, m.fields[m.writeField.toNat]? = some buf ∧
      m' = (m.setField m.writeField.toNat (Memory.write buf m.writeCounter.toNat b)).setCounter
        (m.writeCounter + 1#8)) ∨
    (cfg.fieldLength ≤ m.writeCounter.toNat ∧ m' = m) := by
  unfold accField at h
  split at h
  · cases hb : m.fields[m.writeField.toNat]? with
    | none => simp [hb] at h
    | some buf =>
      simp only [hb, Except.ok.injEq] at h
      exact .inl ⟨by assumption, buf, rfl, h.symm⟩
  · simp only [Except.ok.injEq] at h
    exact .inr ⟨by omega, h.symm⟩

/-- The counter counts up by one below a capacity of at most 255: the 8-bit sum does not wrap. -/
theorem counter_succ {c : Byte} {cap : Nat} (h : c.toNat < cap) (hcap : cap ≤ 255) :
    (c + 1#8).toNat = c.toNat + 1 := by
  simp only [BitVec.toNat_add, BitVec.toNat_ofNat]
  omega

@[simp] theorem spaceBytes_length (buf : Memory) (cap : Nat) : (spaceBytes buf cap).length = cap := by
  simp [spaceBytes]

theorem spaceBytes_getElem (buf : Memory) (cap i : Nat) (h : i < (spaceBytes buf cap).length) :
    (spaceBytes buf cap)[i] = Memory.read buf i := by
  simp [spaceBytes]

theorem spaceBytes_nil (cap : Nat) : spaceBytes [] cap = List.replicate cap 0#8 := by
  refine List.ext_getElem (by simp) fun i _ _ => ?_
  simp [spaceBytes]

theorem textLength_le (buf : Memory) (cap : Nat) : textLength buf cap ≤ cap := by
  have := List.findIdx_le_length (p := (· == 0x00#8)) (xs := spaceBytes buf cap)
  simpa [textLength] using this

/-- Everything the field port can do when it shows something. -/
theorem fieldPort_eq_ok {cfg : Config} {sel : Byte} {m : Message} {o : Observation}
    (h : fieldPort cfg sel m = .ok o) :
    (cfg.numFields ≤ sel.toNat ∧ o = .field true 0#8 (List.replicate cfg.fieldLength 0#8)) ∨
    (sel.toNat < cfg.numFields ∧ ∃ buf, m.fields[sel.toNat]? = some buf ∧
      o = .field false (textLengthOut buf cfg.fieldLength) (spaceBytes buf cfg.fieldLength)) := by
  unfold fieldPort rdErrFlag at h
  split at h
  · rename_i hs
    simp only [decide_eq_true_eq] at hs
    simp only [Except.ok.injEq] at h
    exact .inl ⟨hs, h.symm⟩
  · rename_i hs
    simp only [decide_eq_true_eq, Nat.not_le] at hs
    cases hb : m.fields[sel.toNat]? with
    | none => simp [hb] at h
    | some buf =>
      simp only [hb, Except.ok.injEq] at h
      exact .inr ⟨hs, buf, rfl, h.symm⟩

end Sys2Proof.Machine
end

