-- ==== Sys2Proof/Laws/Decode.lean ====
section
/-! SUPPORT. The fields of a control word built from a byte, and the byte classes of a well-formed
configuration. -/

namespace Sys2Proof

@[simp] theorem ctrlRst_byteWord (b : Byte) : ctrlRst (byteWord b) = false := by
  revert b; decide

@[simp] theorem ctrlInit_byteWord (b : Byte) : ctrlInit (byteWord b) = false := by
  revert b; decide

@[simp] theorem ctrlValid_byteWord (b : Byte) : ctrlValid (byteWord b) = true := by
  revert b; decide

@[simp] theorem ctrlByte_byteWord (b : Byte) : ctrlByte (byteWord b) = b := by
  revert b; decide

/-- The word of a consumed byte decodes to the operation of its class. -/
theorem decodeWord_byteWord (cfg : Config) (b : Byte) : decodeWord cfg (byteWord b) = decodeByte cfg b := by
  simp [decodeWord]

/-- A well-formed configuration has three distinct markers, none a digit, and sizes within R11. -/
theorem Config.wf_iff (cfg : Config) :
    cfg.wf = true ↔
      (1 ≤ cfg.commandLength ∧ cfg.commandLength ≤ 255 ∧ 1 ≤ cfg.fieldLength ∧ cfg.fieldLength ≤ 255 ∧
        1 ≤ cfg.numFields ∧ cfg.numFields ≤ 256) ∧
      (cfg.startByte ≠ cfg.sepByte ∧ cfg.startByte ≠ cfg.endByte ∧ cfg.sepByte ≠ cfg.endByte) ∧
      (Machine.isDigit cfg.startByte = false ∧ Machine.isDigit cfg.sepByte = false ∧
        Machine.isDigit cfg.endByte = false) := by
  simp only [Config.wf, Config.sizesOk, Config.markersDistinct, Config.markersNotDigits, Bool.and_eq_true,
    decide_eq_true_eq, Bool.not_eq_true', and_assoc]

namespace Machine

theorem cls_eq_start_iff (cfg : Config) (b : Byte) : cls cfg b = .start ↔ b = cfg.startByte := by
  unfold cls
  repeat' split
  all_goals simp_all

/-- A byte is content exactly when it is no marker. -/
theorem cls_eq_content_iff (cfg : Config) (b : Byte) :
    cls cfg b = .content ↔ b ≠ cfg.startByte ∧ b ≠ cfg.sepByte ∧ b ≠ cfg.endByte := by
  unfold cls
  repeat' split
  all_goals simp_all

theorem cls_sepByte {cfg : Config} (h : cfg.wf = true) : cls cfg cfg.sepByte = .sep := by
  obtain ⟨-, ⟨h1, -, -⟩, -⟩ := (Config.wf_iff cfg).1 h
  simp [cls, h1.symm]

theorem cls_endByte {cfg : Config} (h : cfg.wf = true) : cls cfg cfg.endByte = .fin := by
  obtain ⟨-, ⟨-, h2, h3⟩, -⟩ := (Config.wf_iff cfg).1 h
  simp [cls, h2.symm, h3.symm]

/-- In a well-formed configuration a digit is content. -/
theorem cls_digit {cfg : Config} (h : cfg.wf = true) {b : Byte} (hb : isDigit b = true) : cls cfg b = .content := by
  obtain ⟨-, -, h1, h2, h3⟩ := (Config.wf_iff cfg).1 h
  rw [cls_eq_content_iff]
  refine ⟨?_, ?_, ?_⟩ <;> rintro rfl <;> simp_all

end Machine

end Sys2Proof
end

