-- ==== Sys2Proof/Laws/PerInstr.lean ====
section
/-! SUPPORT. Families of lemmas with one member per operation. -/

namespace Sys2Proof.Laws.EncodeMatchesRow

/-- What the encoder presents for an operation of a well-formed configuration fits that operation's own row of
the opcode table: a control word its match, mask and condition, a select its condition, a port its
name. -/
def Statement (i : Instr) : Prop :=
  ∀ cfg : Config, cfg.wf = true → i.wf cfg = true →
    match encode cfg i with
    | .edge w => rowMatches cfg i w = true
    | .read sel => i = .rdField sel ∧ sel.toNat < cfg.numFields ∨ i = .rdFieldOor sel ∧ cfg.numFields ≤ sel.toNat
    | .port p => decodePort p = i

/-- A word ANDed with all ones is the word. -/
theorem byteWord_and_all (b : Byte) : byteWord b &&& 0x7FF#11 = byteWord b := by
  revert b; decide

theorem reset : Statement .reset := fun _ _ _ => by rfl

theorem init : Statement .init := fun _ _ _ => by rfl

theorem idle : Statement .idle := fun _ _ _ => by rfl

theorem pbStart : Statement .pbStart := fun cfg _ _ => by
  simpa [encode, rowMatches, rowMatch, rowMask, byteWord] using byteWord_and_all cfg.startByte

theorem pbSep : Statement .pbSep := fun cfg _ _ => by
  simpa [encode, rowMatches, rowMatch, rowMask, byteWord] using byteWord_and_all cfg.sepByte

theorem pbEnd : Statement .pbEnd := fun cfg _ _ => by
  simpa [encode, rowMatches, rowMatch, rowMask, byteWord] using byteWord_and_all cfg.endByte

theorem digit_row (b : Byte) (h : Machine.isDigit b = true) :
    byteWord b &&& 0x7F0#11 = 0x130#11 ∧ ((byteWord b).extractLsb' 0 4).toNat ≤ 9 := by
  revert b; decide

theorem byte_row (b : Byte) : byteWord b &&& 0x700#11 = 0x100#11 := by
  revert b; decide

theorem pbDigit (b : Byte) : Statement (.pbDigit b) := fun cfg _ hi => by
  obtain ⟨-, hd⟩ := Bool.and_eq_true_iff.1 hi
  obtain ⟨hm, hn⟩ := digit_row b hd
  simp only [encode, rowMatches, rowMatch, rowMask, hm, hn, ctrlByte_byteWord, decide_true, beq_self_eq_true,
    Bool.and_self]

theorem pbOther (b : Byte) : Statement (.pbOther b) := fun cfg _ _ => by
  simp [encode, rowMatches, rowMatch, rowMask, byte_row b]

theorem rdField (sel : Byte) : Statement (.rdField sel) := fun _ _ hi => by
  simpa [encode, Instr.wf] using hi

theorem rdFieldOor (sel : Byte) : Statement (.rdFieldOor sel) := fun _ _ hi => by
  simpa [encode, Instr.wf] using hi

theorem rdCommand : Statement .rdCommand := fun _ _ _ => rfl

theorem rdSource : Statement .rdSource := fun _ _ _ => rfl

theorem rdDest : Statement .rdDest := fun _ _ _ => rfl

theorem rdStatus : Statement .rdStatus := fun _ _ _ => rfl

end Sys2Proof.Laws.EncodeMatchesRow
end

