-- ==== Sys2Proof/Tests/Slice0.lean ====
section
/-! SUPPORT. The model's own tests: ill-formed terms refused, words written out from 30_encoding.md decoded, at most two
vectors of 95_test_vectors.md per operation, and for each statement with hypotheses a witness that meets
them. -/

namespace Sys2Proof.Tests

open Sys2Proof Sys2Proof.Machine

/-- The reference configuration with either value of RESYNC_MID_FRAME. -/
def testCfg (resync : Bool) : Config := { Config.reference with resyncMidFrame := resync }

/-- A record with empty spaces and addresses 0. -/
def testRecord (code : BitVec 3) (wc wf : Byte) : Message :=
  { Message.fresh Config.reference with parserState := code, writeCounter := wc, writeField := wf }

/-- A machine with a given record. -/
def testMachine (resync : Bool) (m : Message) : State :=
  { State.powerUp (testCfg resync) with record := some m }

/-- A machine with a record of empty spaces. -/
def testState (resync : Bool) (code : BitVec 3) (wc wf : Byte) : State :=
  testMachine resync (testRecord code wc wf)

/-- The record after an outcome, `none` where it is not a next state with a record. -/
def recordAfter (o : Host.Outcome State Fault Refusal) : Option Message :=
  match o with
  | .next t => t.record
  | .fault _ => none
  | .refused _ => none

/-- What the host saw after an outcome. -/
def seenAfter (o : Host.Outcome State Fault Refusal) : Option Observation :=
  match o with
  | .next t => t.observed
  | .fault _ => none
  | .refused _ => none

/-- The fault of an outcome. -/
def faultOf (o : Host.Outcome State Fault Refusal) : Option Fault :=
  match o with
  | .next _ => none
  | .fault r => some r
  | .refused _ => none

/-! ### WellFormed refuses ill-formed terms -/

theorem test_reference_wf : Config.reference.wf = true := by decide

theorem test_commandLength_bounds : (Config.wf { Config.reference with commandLength := 0 }) = false ∧
    (Config.wf { Config.reference with commandLength := 256 }) = false := by decide

theorem test_fieldLength_bounds : (Config.wf { Config.reference with fieldLength := 0 }) = false ∧
    (Config.wf { Config.reference with fieldLength := 256 }) = false := by decide

theorem test_numFields_bounds : (Config.wf { Config.reference with numFields := 0 }) = false ∧
    (Config.wf { Config.reference with numFields := 257 }) = false ∧
    (Config.wf { Config.reference with numFields := 256 }) = true := by decide

theorem test_equal_markers_refused : (Config.wf { Config.reference with sepByte := 0x3C#8 }) = false ∧
    (Config.wf { Config.reference with endByte := 0x3C#8 }) = false ∧
    (Config.wf { Config.reference with endByte := 0x7C#8 }) = false := by decide

theorem test_digit_markers_refused : (Config.wf { Config.reference with startByte := 0x30#8 }) = false ∧
    (Config.wf { Config.reference with sepByte := 0x39#8 }) = false ∧
    (Config.wf { Config.reference with endByte := 0x35#8 }) = false := by decide

theorem test_pbDigit_operand_refused : Instr.wf Config.reference (.pbDigit 0x2F#8) = false ∧
    Instr.wf Config.reference (.pbDigit 0x3A#8) = false := by decide

theorem test_pbOther_operand_refused : Instr.wf Config.reference (.pbOther 0x3C#8) = false ∧
    Instr.wf Config.reference (.pbOther 0x30#8) = false := by decide

theorem test_select_operands_refused : Instr.wf Config.reference (.rdField 3#8) = false ∧
    Instr.wf Config.reference (.rdFieldOor 2#8) = false := by decide

theorem test_illFormed_config_refused :
    decode { Config.reference with sepByte := 0x3C#8 } (.edge 0x400#11) = .error .illFormedConfig := by decide

/-! ### Words written out bit by bit from 30_encoding.md R70 and R71 -/

theorem test_decode_reset : decode Config.reference (.edge 0b10000000000#11) = .ok .reset ∧
    decode Config.reference (.edge 0b11100111100#11) = .ok .reset := by decide

theorem test_decode_init : decode Config.reference (.edge 0b01000000000#11) = .ok .init ∧
    decode Config.reference (.edge 0b01100111100#11) = .ok .init := by decide

theorem test_decode_idle : decode Config.reference (.edge 0b00000000000#11) = .ok .idle ∧
    decode Config.reference (.edge 0b00011111111#11) = .ok .idle := by decide

theorem test_decode_markers : decode Config.reference (.edge 0b00100111100#11) = .ok .pbStart ∧
    decode Config.reference (.edge 0b00101111100#11) = .ok .pbSep ∧
    decode Config.reference (.edge 0b00100111110#11) = .ok .pbEnd := by decide

theorem test_decode_digits : decode Config.reference (.edge 0b00100110000#11) = .ok (.pbDigit 0x30#8) ∧
    decode Config.reference (.edge 0b00100111001#11) = .ok (.pbDigit 0x39#8) := by decide

theorem test_decode_other : decode Config.reference (.edge 0b00100111010#11) = .ok (.pbOther 0x3A#8) ∧
    decode Config.reference (.edge 0b00100000000#11) = .ok (.pbOther 0x00#8) ∧
    decode Config.reference (.edge 0b00111111111#11) = .ok (.pbOther 0xFF#8) := by decide

theorem test_decode_selects : decode Config.reference (.read 0b00000010#8) = .ok (.rdField 2#8) ∧
    decode Config.reference (.read 0b00000011#8) = .ok (.rdFieldOor 3#8) ∧
    decode Config.reference (.read 0b11111111#8) = .ok (.rdFieldOor 255#8) := by decide

theorem test_decode_ports : decode Config.reference (.port .command) = .ok .rdCommand ∧
    decode Config.reference (.port .source) = .ok .rdSource ∧
    decode Config.reference (.port .dest) = .ok .rdDest ∧
    decode Config.reference (.port .status) = .ok .rdStatus := by decide

theorem test_table_words : decodeTableWord 16 0x13C = some .pbStart ∧ decodeTableWord 11 0x130 = some (.pbDigit 0x30#8) ∧
    decodeTableWord 8 0 = some (.rdField 0#8) ∧ decodeTableWord 16 0x800 = none := by decide

/-! ### Vectors of 95_test_vectors.md, one step each -/

/-- The end of L1-1, `(DONE, 0, 2, 1, 5, "MOVE", "10", "20", "")`. -/
def moveRecord : Message :=
  { testRecord 5#3 0x00#8 0x02#8 with
    command := [(0, 0x4D#8), (1, 0x4F#8), (2, 0x56#8), (3, 0x45#8)]
    source := 1#8
    dest := 5#8
    fields := [[(0, 0x31#8), (1, 0x30#8)], [(0, 0x32#8), (1, 0x30#8)], []] }

/-- V-C7. -/
theorem test_reset_from_powerUp : recordAfter (exec .reset (State.powerUp Config.reference)) =
    some (testRecord 0#3 0x00#8 0x00#8) := by decide

/-- V-C1. -/
theorem test_init_from_done : recordAfter (exec .init (testMachine false moveRecord)) =
    some (testRecord 0#3 0x00#8 0x00#8) := by decide

/-- V-C2: word 33C in Fresh consumes no byte. -/
theorem test_init_holds_byte : recordAfter (step { State.reset with pending := [.edge 0x33C#11] }) =
    some (testRecord 0#3 0x00#8 0x00#8) := by decide

/-- V-C4. -/
theorem test_idle_ignores_byte :
    recordAfter (step { testMachine false moveRecord with pending := [.edge 0x0FF#11] }) = some moveRecord := by decide

/-- V-C6. -/
theorem test_byte_at_powerUp_faults :
    faultOf (step { State.powerUp Config.reference with pending := [.edge 0x13C#11] }) = some .noValue := by decide

/-- V-S1. -/
theorem test_pbStart_in_start : recordAfter (step (State.reset.withFetchWord 16 0x13C)) =
    some (testRecord 1#3 0x00#8 0x00#8) := by decide

/-- V-S4. -/
theorem test_pbStart_resync : recordAfter (exec .pbStart (testMachine true { moveRecord with parserState := 4#3 })) =
    some (testRecord 1#3 0x00#8 0x00#8) := by decide

/-- V-P7. -/
theorem test_pbSep_overflow : recordAfter (exec .pbSep (testState false 4#3 0x01#8 0x02#8)) =
    some (testRecord 4#3 0x20#8 0x02#8) := by decide

/-- V-P6. -/
theorem test_pbSep_next_slot : recordAfter (exec .pbSep (testState false 4#3 0x20#8 0x01#8)) =
    some (testRecord 4#3 0x00#8 0x02#8) := by decide

/-- V-E7. -/
theorem test_pbEnd_completes : recordAfter (exec .pbEnd (testState false 4#3 0x20#8 0x02#8)) =
    some (testRecord 5#3 0x20#8 0x02#8) := by decide

/-- V-E5. -/
theorem test_pbEnd_stalls : recordAfter (exec .pbEnd (testState false 4#3 0x00#8 0x01#8)) =
    some (testRecord 4#3 0x00#8 0x01#8) := by decide

/-- V-D7: 999 mod 256. -/
theorem test_pbDigit_wraps :
    (recordAfter (exec (.pbDigit 0x39#8) (testMachine false { testRecord 2#3 0x00#8 0x00#8 with source := 99#8 }))).map
      (·.source) = some 231#8 := by decide

/-- V-D9. -/
theorem test_pbDigit_fills_field : recordAfter (exec (.pbDigit 0x39#8) (testState false 4#3 0x1F#8 0x01#8)) =
    some { testRecord 4#3 0x20#8 0x01#8 with fields := [[], [(31, 0x39#8)], []] } := by decide

/-- V-O3: truncation. -/
theorem test_pbOther_truncated : recordAfter (exec (.pbOther 0x49#8) (testState false 1#3 0x08#8 0x00#8)) =
    some (testRecord 1#3 0x08#8 0x00#8) := by decide

/-- V-O6: a stored 0x00. -/
theorem test_pbOther_zero : recordAfter (exec (.pbOther 0x00#8) (testState false 4#3 0x00#8 0x00#8)) =
    some (testRecord 4#3 0x01#8 0x00#8) := by decide

/-- V-R7: lanes 'a', 0x00, 'b' and `rd_len` 1. -/
theorem test_rdField_stops_at_zero :
    (match seenAfter (exec (.rdField 0#8) (testMachine false
        { testRecord 5#3 0x00#8 0x02#8 with fields := [[(0, 0x61#8), (2, 0x62#8)], [], []] })) with
      | some (.field e n lanes) => !e && n == 1#8 && busValue (lanes.take 3) == 0x620061
      | _ => false) = true := by decide

/-- V-R3. -/
theorem test_rdFieldOor : seenAfter (exec (.rdFieldOor 3#8) (testMachine false moveRecord)) =
    some (.field true 0x00#8 (List.replicate 32 0x00#8)) := by decide

/-- L1-1: `cmd_len` = 4 and `cmd_data[31:0]` = 0x45564F4D. -/
theorem test_rdCommand :
    (match seenAfter (exec .rdCommand (testMachine false moveRecord)) with
      | some (.command n lanes) => n == 4#8 && busValue lanes == 0x45564F4D
      | _ => false) = true := by decide

/-- R163, R164: `source_o` = 1 and `dest_o` = 5 after the MOVE frame. -/
theorem test_rdSource_rdDest : seenAfter (exec .rdSource (testMachine false moveRecord)) = some (.source 1#8) ∧
    seenAfter (exec .rdDest (testMachine false moveRecord)) = some (.dest 5#8) := by decide

/-- R165: after the MOVE frame `complete` = 1, `state_o` = 5, `wc_o` = 0, `wf_o` = 2. -/
theorem test_rdStatus : seenAfter (exec .rdStatus (testMachine false moveRecord)) =
    some (.status true 5#3 0x00#8 0x02#8) := by decide

/-! ### Witnesses: for each statement with hypotheses, states and operands that meet them -/

/-- A reached record: in the last field, one byte stored in each field, RESYNC_MID_FRAME either. -/
def fieldRecord : Message :=
  { testRecord 4#3 0x01#8 0x02#8 with
    command := [(0, 0x4D#8)], source := 1#8, dest := 5#8
    fields := [[(0, 0x61#8)], [(0, 0x62#8)], [(0, 0x63#8)]] }

theorem test_fieldRecord_inv (r : Bool) : (testMachine r fieldRecord).Inv where
  config := by cases r <;> decide
  record := by
    rintro m h
    cases h
    exact
      { shape := by cases r <;> constructor <;> decide
        ranges := by cases r <;> constructor <;> decide
        blankAhead := by
          refine ⟨by decide +revert, by decide, by decide, by decide, by decide, fun _ buf h => ?_, fun _ j buf hj h => ?_⟩
          · cases h; decide
          · have : fieldRecord.fields[j]? = none := List.getElem?_eq_none hj
            rw [this] at h; cases h }

/-- A reached record in DONE. -/
theorem test_moveRecord_inv (r : Bool) : (testMachine r moveRecord).Inv where
  config := by cases r <;> decide
  record := by
    rintro m h
    cases h
    exact
      { shape := by cases r <;> constructor <;> decide
        ranges := by cases r <;> constructor <;> decide
        blankAhead := by
          refine ⟨by decide +revert, by decide, by decide, by decide, by decide, fun h => ?_, fun h => ?_⟩ <;>
            exact absurd h (by decide) }

/-- A reached record in READING_COMMAND. -/
theorem test_commandRecord_inv (r : Bool) : (testMachine r { testRecord 1#3 0x01#8 0x00#8 with command := [(0, 0x4D#8)] }).Inv where
  config := by cases r <;> decide
  record := by
    rintro m h
    cases h
    exact
      { shape := by cases r <;> constructor <;> decide
        ranges := by cases r <;> constructor <;> decide
        blankAhead := by
          refine ⟨by decide +revert, by decide, by decide, by decide, by decide, fun h => ?_, fun h => ?_⟩ <;>
            exact absurd h (by decide) }

/-- A command record with one byte stored. -/
def commandRecord (wc : Byte) : Message := { testRecord 1#3 wc 0x00#8 with command := [(0, 0x4D#8)] }

theorem witness_ControlWordSelectsByPriority : (testCfg false).wf = true ∧
    (0x7FF#11).getLsbD 10 = true ∧
    ((0x3FF#11).getLsbD 10 = false ∧ (0x3FF#11).getLsbD 9 = true) ∧
    ((0x0FF#11).getLsbD 10 = false ∧ (0x0FF#11).getLsbD 9 = false ∧ (0x0FF#11).getLsbD 8 = false) ∧
    ∀ b ∈ [0x3C#8, 0x7C#8, 0x3E#8, 0x2F#8, 0x30#8, 0x39#8, 0x3A#8], ∃ w ∈ [byteWord b],
      w.getLsbD 10 = false ∧ w.getLsbD 9 = false ∧ w.getLsbD 8 = true ∧ b = w.extractLsb' 0 8 := by decide

theorem witness_DecoderTakesLowestPriorityRow : (testCfg false).wf = true ∧
    rowMatches (testCfg false) (.pbOther 0x3C#8) 0x13C#11 = true ∧ Instr.pbOther 0x3C#8 ≠ .pbStart ∧
    rowMatches (testCfg false) (.pbOther 0x39#8) 0x139#11 = true ∧ Instr.pbOther 0x39#8 ≠ .pbDigit 0x39#8 := by decide

theorem witness_DecodeInvertsEncode : (testCfg false).wf = true ∧
    ∀ i ∈ [Instr.pbDigit 0x30#8, .pbDigit 0x39#8, .pbOther 0x2F#8, .pbOther 0x3A#8, .rdField 2#8, .rdFieldOor 3#8,
      .reset, .pbEnd], i.wf (testCfg false) = true := by decide

theorem witness_EncodeGivesBackDecodedBits : decode (testCfg false) (.edge 0x7FF#11) = .ok .reset ∧
    decode (testCfg false) (.edge 0x1FF#11) = .ok (.pbOther 0xFF#8) ∧
    decode (testCfg false) (.read 3#8) = .ok (.rdFieldOor 3#8) ∧
    decode (testCfg false) (.port .dest) = .ok .rdDest := by decide

theorem witness_ReadSelectSplitsAtNumFields : (testCfg false).wf = true ∧
    (2#8).toNat < (testCfg false).numFields ∧ (testCfg false).numFields ≤ (3#8).toNat := by decide

theorem witness_StepRunsDecodedOperation : (testState false 0#3 0x00#8 0x00#8).cfg.wf = true ∧
    (testState false 0#3 0x00#8 0x00#8).pending = [] ∧
    ({ testState false 0#3 0x00#8 0x00#8 with pending := [stmtInit] }).pending = stmtInit :: [] ∧
    decode (testCfg false) stmtInit = .ok .init := by decide

theorem witness_HandshakeConsumesOfferedByte : (testCfg false).wf = true ∧ inReady 0x33C#11 = false ∧
    (0x200#11).getLsbD 10 = (0x33C#11).getLsbD 10 ∧ (0x200#11).getLsbD 9 = (0x33C#11).getLsbD 9 := by decide

theorem witness_ResetAndInitLeaveEmptyMessage : (Instr.reset = .reset ∨ Instr.reset = .init) ∧
    (Instr.init = .reset ∨ Instr.init = .init) ∧
    (2#8).toNat < (State.powerUp (testCfg false)).cfg.numFields := by decide

theorem witness_InitClearsFromEveryState : 0x33C#11 &&& 0x600#11 = 0x200#11 ∧ (testCfg true).wf = true := by decide

theorem witness_ResetPerformsInitWrites : 0x7FF#11 &&& 0x400#11 = 0x400#11 ∧ (testCfg true).wf = true := by decide

theorem witness_IdleKeepsState : (State.powerUp (testCfg false)).record = none ∧
    (testState false 5#3 0x00#8 0x02#8).record = some (testRecord 5#3 0x00#8 0x02#8) ∧
    (testRecord 5#3 0x00#8 0x02#8).parserState.toNat ≤ 5 ∧ 0x0FF#11 &&& 0x700#11 = 0x000#11 := by decide

theorem witness_IdleEdgesAreInvisible : (testMachine false fieldRecord).Inv := test_fieldRecord_inv false

theorem witness_InitForgetsHistory : ∃ t₁ t₂,
    (testMachine false moveRecord).cfg = (testMachine false fieldRecord).cfg ∧ (testCfg false).wf = true ∧
    runProgram ([stmtIdle] ++ [stmtInit]) (testMachine false moveRecord) = .next t₁ ∧
    runProgram ([] ++ [stmtInit]) (testMachine false fieldRecord) = .next t₂ := ⟨_, _, rfl, by decide, rfl, rfl⟩

/-- Each state of PB_START's clauses, codes 1 and 4 with both values of RESYNC_MID_FRAME. -/
theorem witness_PbStartActsByState : (∀ r, ∀ c ∈ [0#3, 1#3, 4#3, 5#3], (testState r c 0x00#8 0x00#8).record =
      some (testRecord c 0x00#8 0x00#8) ∧ (testRecord c 0x00#8 0x00#8).parserState = c) ∧
    (1 ≤ (1#3).toNat ∧ (4#3).toNat ≤ 4) ∧ (testState false 1#3 0x00#8 0x00#8).cfg.resyncMidFrame = false ∧
    (testState true 4#3 0x00#8 0x00#8).cfg.resyncMidFrame = true := by decide

/-- Each state of PB_SEP's clauses; in READING_FIELD slots NUM_FIELDS-2 and NUM_FIELDS-1. -/
theorem witness_PbSepActsByState : (∀ c ∈ [0#3, 1#3, 2#3, 3#3, 4#3, 5#3], (testState false c 0x00#8 0x01#8).record =
      some (testRecord c 0x00#8 0x01#8) ∧ (testRecord c 0x00#8 0x01#8).parserState = c) ∧
    (testRecord 4#3 0x00#8 0x01#8).writeField.toNat < (testCfg false).numFields - 1 ∧
    (testState false 4#3 0x00#8 0x02#8).record = some (testRecord 4#3 0x00#8 0x02#8) ∧
    (testCfg false).numFields - 1 ≤ (testRecord 4#3 0x00#8 0x02#8).writeField.toNat := by decide

theorem witness_PbEndActsByState : (∀ c ∈ [0#3, 3#3], (testState false c 0x00#8 0x00#8).record =
      some (testRecord c 0x00#8 0x00#8) ∧ (testRecord c 0x00#8 0x00#8).parserState.toNat ≤ 3) ∧
    ((testMachine false fieldRecord).record = some fieldRecord ∧ fieldRecord.parserState = 4#3 ∧
      fieldRecord.writeField.toNat = (testCfg false).numFields - 1) ∧
    ((testState false 4#3 0x00#8 0x01#8).record = some (testRecord 4#3 0x00#8 0x01#8) ∧
      (testRecord 4#3 0x00#8 0x01#8).writeField.toNat ≠ (testCfg false).numFields - 1) ∧
    (testMachine false moveRecord).record = some moveRecord ∧ moveRecord.parserState = 5#3 := by decide

/-- Digits '0' and '9'; each state; the counters just below and at a capacity; the last slot. -/
theorem witness_PbDigitActsByState : (∀ b ∈ [0x30#8, 0x39#8], 0x30 ≤ b.toNat ∧ b.toNat ≤ 0x39) ∧
    (∀ c ∈ [0#3, 2#3, 3#3, 5#3], (testState false c 0x00#8 0x00#8).record = some (testRecord c 0x00#8 0x00#8) ∧
      (testRecord c 0x00#8 0x00#8).parserState = c) ∧
    ((testMachine false (commandRecord 0x07#8)).record = some (commandRecord 0x07#8) ∧
      (commandRecord 0x07#8).parserState = 1#3 ∧ (commandRecord 0x07#8).writeCounter.toNat < 8 ∧
      8 ≤ (commandRecord 0x08#8).writeCounter.toNat) ∧
    ((testState false 4#3 0x1F#8 0x02#8).record = some (testRecord 4#3 0x1F#8 0x02#8) ∧
      (testRecord 4#3 0x1F#8 0x02#8).writeCounter.toNat < (testCfg false).fieldLength ∧
      (testRecord 4#3 0x1F#8 0x02#8).fields[2]? = some [] ∧
      (testCfg false).fieldLength ≤ (testRecord 4#3 0x20#8 0x02#8).writeCounter.toNat) ∧
    (testCfg false).wf = true := by decide

theorem witness_PbOtherActsByState : (∀ b ∈ [0x00#8, 0x2F#8, 0x3A#8, 0xFF#8], (Instr.pbOther b).wf (testCfg false) = true) ∧
    (∀ c ∈ [0#3, 2#3, 3#3, 5#3], (testState false c 0x00#8 0x00#8).record = some (testRecord c 0x00#8 0x00#8) ∧
      (testRecord c 0x00#8 0x00#8).parserState = c) ∧
    (Memory.wf (commandRecord 0x07#8).command = true ∧
      (∀ buf ∈ (commandRecord 0x07#8).fields, Memory.wf buf = true) ∧
      (testMachine false (commandRecord 0x07#8)).record = some (commandRecord 0x07#8) ∧
      (commandRecord 0x07#8).writeCounter.toNat < (testCfg false).commandLength ∧
      (testCfg false).commandLength ≤ (commandRecord 0x08#8).writeCounter.toNat) ∧
    (Memory.wf fieldRecord.command = true ∧ (∀ buf ∈ fieldRecord.fields, Memory.wf buf = true) ∧
      fieldRecord.parserState = 4#3 ∧ fieldRecord.writeCounter.toNat < (testCfg false).fieldLength ∧
      fieldRecord.fields[fieldRecord.writeField.toNat]? = some [(0, 0x63#8)] ∧
      (testCfg false).fieldLength ≤ (testRecord 4#3 0x20#8 0x02#8).writeCounter.toNat) := by decide

theorem witness_RestartIsInitThenStart : ∀ m ∈ [commandRecord 0x01#8, fieldRecord],
    (testMachine true m).record = some m ∧ (testMachine true m).cfg.resyncMidFrame = true ∧
      1 ≤ m.parserState.toNat ∧ m.parserState.toNat ≤ 4 := by decide

theorem witness_CompleteIsReturnValue : ∃ t m', isByteOp .pbEnd = true ∧
    (testMachine false fieldRecord).record = some fieldRecord ∧
    exec .pbEnd (testMachine false fieldRecord) = .next t ∧ t.record = some m' :=
  ⟨_, _, rfl, rfl, rfl, rfl⟩

/-- The first slot that is not there, and a record that meets the invariant at the last slot. -/
theorem witness_MissingSlotFaults :
    ((testState false 4#3 0x00#8 0x03#8).record = some (testRecord 4#3 0x00#8 0x03#8) ∧
      (testRecord 4#3 0x00#8 0x03#8).parserState = 4#3 ∧
      (testRecord 4#3 0x00#8 0x03#8).writeCounter.toNat < (testCfg false).fieldLength ∧
      (testRecord 4#3 0x00#8 0x03#8).fields.length ≤ (testRecord 4#3 0x00#8 0x03#8).writeField.toNat) ∧
    (testMachine false fieldRecord).record = some fieldRecord ∧ (testMachine false fieldRecord).Inv :=
  ⟨by decide, rfl, test_fieldRecord_inv false⟩

theorem witness_RdFieldShowsSlot : (testMachine false moveRecord).record = some moveRecord ∧
    moveRecord.parserState.toNat ≤ 5 ∧ (2#8).toNat < (testCfg false).numFields ∧
    moveRecord.fields[(2#8).toNat]? = some [] ∧ (testCfg false).wf = true := by decide

theorem witness_RdFieldOorShowsError : (testMachine false moveRecord).record = some moveRecord ∧
    moveRecord.parserState.toNat ≤ 5 ∧ (testCfg false).numFields ≤ (3#8).toNat ∧ (testCfg false).wf = true := by decide

/-- The hypotheses of the statements on the ports without a select. -/
theorem witness_RdCommandShowsCommand : (testMachine false moveRecord).record = some moveRecord ∧
    moveRecord.parserState.toNat ≤ 5 := by decide

theorem witness_RdSourceShowsSource : (testMachine true fieldRecord).record = some fieldRecord ∧
    fieldRecord.parserState.toNat ≤ 5 := by decide

theorem witness_RdDestShowsDest : (testMachine false fieldRecord).record = some fieldRecord ∧
    fieldRecord.parserState.toNat ≤ 5 := by decide

theorem witness_RdStatusShowsState : (testState false 0#3 0x00#8 0x00#8).record = some (testRecord 0#3 0x00#8 0x00#8) ∧
    (testRecord 0#3 0x00#8 0x00#8).parserState.toNat ≤ 5 := by decide

theorem witness_ReadsChangeOnlyTheView : ∃ t, isReadOp .rdStatus = true ∧
    exec .rdStatus (testMachine false moveRecord) = .next t := ⟨_, rfl, rfl⟩

theorem witness_ReadsShowOldMessageUntilInitEdge :
    (testMachine false moveRecord).Inv ∧ (testMachine false moveRecord).record = some moveRecord :=
  ⟨test_moveRecord_inv false, rfl⟩

theorem witness_TextLengthIsLeastZero : 0 < textLength [(0, 0x61#8), (2, 0x62#8)] 4 := by decide

/-- The least and the greatest lane of a bus of four. -/
theorem witness_BusLanesFollowByteOrder : 0 < (spaceBytes [(3, 0x61#8)] 4).length ∧ 3 < (spaceBytes [(3, 0x61#8)] 4).length := by decide

theorem witness_PowerUpStopsBytesAndReads : (State.powerUp (testCfg false)).record = none ∧
    isByteOp .pbStart = true ∧ isReadOp (.rdFieldOor 3#8) = true := by decide

theorem witness_IllegalCodesStop : ∀ c ∈ [6#3, 7#3], (testState false c 0x00#8 0x00#8).record =
    some (testRecord c 0x00#8 0x00#8) ∧ 6 ≤ (testRecord c 0x00#8 0x00#8).parserState.toNat ∧
    Instr.idle ≠ .reset ∧ Instr.idle ≠ .init := by decide

theorem witness_InitialisedMachineNeverStops :
    (testMachine true fieldRecord).Inv ∧ (testMachine true fieldRecord).record = some fieldRecord :=
  ⟨test_fieldRecord_inv true, rfl⟩

theorem witness_EveryStepKeepsInvariant : ∃ t, { testMachine true fieldRecord with pending := [stmtByte 0x41#8] }.Inv ∧
    step { testMachine true fieldRecord with pending := [stmtByte 0x41#8] } = .next t :=
  ⟨_, ⟨(test_fieldRecord_inv true).config, (test_fieldRecord_inv true).record⟩, rfl⟩

theorem witness_ResetAndPowerUpMeetInvariant : (testCfg true).wf = true := by decide

theorem witness_ReachableRecordsKeepRanges : ∃ t, (testState false 7#3 0xFF#8 0xFF#8).cfg.wf = true ∧
    (stmtReset = stmtReset ∨ stmtReset = stmtInit) ∧
    runProgram (stmtReset :: [stmtStart (testCfg false)]) (testState false 7#3 0xFF#8 0xFF#8) = .next t :=
  ⟨_, by decide, .inl rfl, rfl⟩

theorem witness_EveryStepKeepsMarkersOut : ∃ t, (testMachine false fieldRecord).cfg.wf = true ∧
    { testMachine false fieldRecord with pending := [stmtEnd (testCfg false)] }.MarkerFree ∧
    step { testMachine false fieldRecord with pending := [stmtEnd (testCfg false)] } = .next t := by
  refine ⟨_, by decide, ?_, rfl⟩
  rintro m h
  cases h
  exact ⟨by decide, by decide⟩

theorem witness_ConfigurationNeverChanges : ∃ t,
    exec (.pbOther 0x41#8) (testMachine true fieldRecord) = .next t := ⟨_, rfl⟩

theorem witness_ParserStateFollowsGraph : ∃ t m', (testMachine true fieldRecord).record = some fieldRecord ∧
    exec .pbStart (testMachine true fieldRecord) = .next t ∧ t.record = some m' ∧
    Instr.pbStart ≠ .reset ∧ Instr.pbStart ≠ .init := ⟨_, _, rfl, rfl, rfl, by decide, by decide⟩

theorem witness_DoneIsTerminal : (testMachine true moveRecord).Inv ∧
    (testMachine true moveRecord).record = some moveRecord ∧ moveRecord.parserState = 5#3 ∧
    ∀ x ∈ [stmtStart (testCfg true), .read 2#8, .port .status, stmtIdle], isClearEdge x = false :=
  ⟨test_moveRecord_inv true, rfl, rfl, by decide⟩

theorem witness_NextRecordDependsOnRecordAndInput : ∃ t,
    (testMachine false moveRecord).cfg = { testMachine false moveRecord with pending := [stmtInit] }.cfg ∧
    (testMachine false moveRecord).record = { testMachine false moveRecord with pending := [stmtInit] }.record ∧
    exec .rdSource (testMachine false moveRecord) = .next t := ⟨_, rfl, rfl, rfl⟩

/-- "2a5" in READING_SOURCE and in READING_DEST. -/
theorem witness_AddressDigitsFormDecimal : (testCfg false).wf = true ∧
    (∀ c ∈ [2#3, 3#3], (testState false c 0x00#8 0x00#8).record = some (testRecord c 0x00#8 0x00#8) ∧
      (testRecord c 0x00#8 0x00#8).parserState = c) ∧
    contentOnly (testCfg false) [0x32#8, 0x61#8, 0x35#8] = true := by decide

/-- Nine bytes from the start, and one more with the command full. -/
theorem witness_CommandBytesAreTruncated : (testCfg false).wf = true ∧
    ((testState false 1#3 0x00#8 0x00#8).record = some (testRecord 1#3 0x00#8 0x00#8) ∧
      (testRecord 1#3 0x00#8 0x00#8).command = [] ∧ Memory.wf (testRecord 1#3 0x00#8 0x00#8).command = true ∧
      contentOnly (testCfg false) (List.replicate 9 0x41#8) = true ∧ 0x00#8 ∉ List.replicate 9 0x41#8) ∧
    ((testMachine false (commandRecord 0x08#8)).record = some (commandRecord 0x08#8) ∧
      Memory.wf (commandRecord 0x08#8).command = true ∧
      (commandRecord 0x08#8).writeCounter.toNat ≤ (testCfg false).commandLength) := by decide

theorem witness_FieldBytesAreTruncated : (testCfg false).wf = true ∧
    ((testState false 4#3 0x00#8 0x02#8).record = some (testRecord 4#3 0x00#8 0x02#8) ∧
      (testRecord 4#3 0x00#8 0x02#8).fields[2]? = some [] ∧
      contentOnly (testCfg false) (List.replicate 33 0x41#8) = true ∧ 0x00#8 ∉ List.replicate 33 0x41#8) ∧
    ((testMachine false fieldRecord).record = some fieldRecord ∧ fieldRecord.parserState = 4#3 ∧
      fieldRecord.fields[fieldRecord.writeField.toNat]? = some [(0, 0x63#8)] ∧
      Memory.wf [(0, 0x63#8)] = true ∧ fieldRecord.writeCounter.toNat ≤ (testCfg false).fieldLength) ∧
    ((testState false 4#3 0x20#8 0x02#8).record = some (testRecord 4#3 0x20#8 0x02#8) ∧
      (testRecord 4#3 0x20#8 0x02#8).writeCounter.toNat ≤ (testCfg false).fieldLength) := by decide

theorem witness_GarbageLeavesNoTrace : ∃ t, (testCfg true).wf = true ∧ (testCfg true).resyncMidFrame = true ∧
    ((testState false 0#3 0x00#8 0x00#8).record = some (testRecord 0#3 0x00#8 0x00#8) ∧
      (testCfg false).startByte ∉ [0x78#8, 0x79#8, 0x3E#8, 0x7C#8]) ∧
    runProgram [stmtByte 0x41#8] (testState true 1#3 0x00#8 0x00#8) = .next t ∧
    t.record = some { testRecord 1#3 0x01#8 0x00#8 with command := [(0, 0x41#8)] } :=
  ⟨_, by decide, rfl, by decide, rfl, by decide⟩

/-- One separator short of the last field; at the last field the statement asks for none. -/
theorem witness_TooFewSeparatorsNeverComplete : (testMachine false (commandRecord 0x01#8)).Inv ∧
    (testMachine false (commandRecord 0x01#8)).record = some (commandRecord 0x01#8) ∧
    (commandRecord 0x01#8).parserState.toNat ≤ 4 ∧
    [0x7C#8, 0x7C#8, 0x7C#8, 0x7C#8, 0x3E#8].count (testCfg false).sepByte <
      (4 - max 1 (commandRecord 0x01#8).parserState.toNat) +
        ((testCfg false).numFields - 1 - (commandRecord 0x01#8).writeField.toNat) :=
  ⟨test_commandRecord_inv false, rfl, by decide, by decide⟩

/-- A small frame: `<M|1|5|a||b>`. -/
def smallFrame : Frame where
  command := [0x4D#8]
  source := [0x31#8]
  dest := [0x35#8]
  fields := [[0x61#8], [], [0x62#8]]

theorem witness_WellFormedFrameCompletesOnce : (testCfg false).wf = true ∧ smallFrame.wf (testCfg false) = true ∧
    0x00#8 ∉ smallFrame.command ∧ (∀ g ∈ smallFrame.fields, 0x00#8 ∉ g) ∧ numeral smallFrame.source ≤ 255 ∧
    numeral smallFrame.dest ≤ 255 ∧
    ((stmtFrame (testCfg false) smallFrame ++ [stmtIdle]).filter fun x => !isIdleEdge x) =
      stmtFrame (testCfg false) smallFrame := by decide

theorem witness_ExtraFieldsAreDiscarded : (testCfg false).wf = true ∧
    Frame.grammatical (testCfg false) { smallFrame with fields := [[0x61#8], [], [0x62#8], [0x63#8]] } = true ∧
    (testCfg false).numFields < [[0x61#8], [], [0x62#8], [0x63#8]].length := by decide

theorem witness_EmptyCommandContinues : (State.powerUp (testCfg false)).cfg.wf = true := by decide

theorem witness_FrameLengthBounds : (testCfg false).commandLength = 8 ∧ (testCfg false).fieldLength = 32 ∧
    (testCfg false).numFields = 3 ∧ smallFrame.wf (testCfg false) = true ∧ smallFrame.source.length ≤ 3 ∧
    smallFrame.dest.length ≤ 3 := by decide

theorem witness_IllFormedConfigurationRefused : (testState false 0#3 0x00#8 0x00#8).cfg.wf = true ∧
    { Config.reference with commandLength := 0 }.wf = false := by decide

end Sys2Proof.Tests
end

/-! PROOFS. The statements of 10_state.md: what RESET and INIT leave (R34), where the machine has no next state
(R22, R35), and that no operation changes the configuration (R30). -/

namespace Sys2Proof.Machine

/-! ### The record of RESET and INIT (R34) -/

theorem exec_reset (s : State) : exec .reset s = .next (s.setRecord (clearRecord s.cfg)) := rfl

theorem exec_init (s : State) : exec .init s = .next (s.setRecord (clearRecord s.cfg)) := rfl

theorem clearRecord_empty (cfg : Config) : (clearRecord cfg).Empty cfg where
  parserState := rfl
  writeCounter := rfl
  writeField := rfl
  command := Memory.read_nil
  slots := by simp
  fields := fun buf hbuf i => by
    have hnil : buf = [] := List.eq_of_mem_replicate hbuf
    rw [hnil, Memory.read_nil]
  source := rfl
  dest := rfl

/-- The text of a blank space is empty, whatever the capacity. -/
theorem textLength_nil (cap : Nat) : textLength [] cap = 0 := by
  rw [textLength, spaceBytes_nil]
  cases cap with
  | zero => rfl
  | succ n => simp [List.replicate_succ, List.findIdx_cons]

theorem textLengthOut_nil (cap : Nat) : textLengthOut [] cap = 0#8 := by
  rw [textLengthOut, textLength_nil]

theorem completeFlag_clearRecord (cfg : Config) : completeFlag (clearRecord cfg) = false := rfl

theorem statusPort_clearRecord (cfg : Config) : statusPort (clearRecord cfg) = .status false 0#3 0#8 0#8 := rfl

theorem commandPort_clearRecord (cfg : Config) :
    commandPort cfg (clearRecord cfg) = .command 0#8 (List.replicate cfg.commandLength 0#8) := by
  rw [commandPort, clearRecord_command, textLengthOut_nil, spaceBytes_nil]

theorem fieldPort_clearRecord {cfg : Config} {sel : Byte} (h : sel.toNat < cfg.numFields) :
    fieldPort cfg sel (clearRecord cfg) = .ok (.field false 0#8 (List.replicate cfg.fieldLength 0#8)) := by
  have hslot : (clearRecord cfg).fields[sel.toNat]? = some [] := by simp [h]
  have hin : rdErrFlag cfg sel = false := by simp [rdErrFlag, h]
  simp only [fieldPort, hin, hslot, textLengthOut_nil, spaceBytes_nil, Bool.false_eq_true, if_false]

/-! ### The kinds of operations -/

/-- An operation clears the record, is IDLE, consumes a byte or reads a port. -/
theorem instr_kinds (i : Instr) :
    i = .reset ∨ i = .init ∨ i = .idle ∨ isByteOp i = true ∨ isReadOp i = true := by
  cases i <;> simp [isByteOp, isReadOp]

/-- Every byte operation consumes its byte by some rule (R120). -/
theorem exec_eq_consume_of_isByteOp {i : Instr} (h : isByteOp i = true) (s : State) :
    ∃ rule, exec i s = consume s rule := by
  cases i with
  | pbStart | pbSep | pbEnd | pbDigit b | pbOther b => exact ⟨_, rfl⟩
  | _ => cases h

/-- Every read operation shows some port (R58). -/
theorem exec_eq_readPort_of_isReadOp {i : Instr} (h : isReadOp i = true) (s : State) :
    ∃ port, exec i s = readPort s port := by
  cases i with
  | rdField sel | rdFieldOor sel => exact ⟨fieldPort s.cfg sel, rfl⟩
  | rdCommand => exact ⟨fun m => .ok (commandPort s.cfg m), rfl⟩
  | rdSource => exact ⟨fun m => .ok (.source m.source), rfl⟩
  | rdDest => exact ⟨fun m => .ok (.dest m.dest), rfl⟩
  | rdStatus => exact ⟨fun m => .ok (statusPort m), rfl⟩
  | _ => cases h

/-! ### What an operation can write -/

/-- IDLE answers no state but the one it was given. -/
theorem eq_of_exec_idle {s t : State} (h : exec .idle s = .next t) : t = s := by
  change execIdle s = .next t at h
  unfold execIdle at h
  split at h
  · exact (Host.Outcome.next.inj h).symm
  · exact (Host.Outcome.next.inj h).symm
  · cases h

/-- All that an operation with a next state does: it writes the record, or it changes nothing, or it puts
what a port shows into the host's view. -/
theorem exec_next_cases {i : Instr} {s t : State} (h : exec i s = .next t) :
    (∃ m, t = s.setRecord m) ∨ t = s ∨ ∃ o, t = s.observe o := by
  obtain rfl | rfl | rfl | hi | hi := instr_kinds i
  · exact .inl ⟨_, (Host.Outcome.next.inj h).symm⟩
  · exact .inl ⟨_, (Host.Outcome.next.inj h).symm⟩
  · exact .inr (.inl (eq_of_exec_idle h))
  · obtain ⟨rule, hrule⟩ := exec_eq_consume_of_isByteOp hi s
    obtain ⟨_, _, m', _, _, _, ht⟩ := (consume_eq_next_iff s t rule).1 (hrule.symm.trans h)
    exact .inl ⟨m', ht⟩
  · obtain ⟨port, hport⟩ := exec_eq_readPort_of_isReadOp hi s
    obtain ⟨_, _, o, _, _, _, ht⟩ := (readPort_eq_next_iff s t port).1 (hport.symm.trans h)
    exact .inr (.inr ⟨o, ht⟩)

/-! ### Where no record is found -/

theorem consume_of_current_error {s : State} {e : Fault} (h : s.current = .error e)
    (rule : ParserState → Message → Except Fault Message) : consume s rule = .fault e := by
  simp [consume, h]

theorem readPort_of_current_error {s : State} {e : Fault} (h : s.current = .error e)
    (port : Message → Except Fault Observation) : readPort s port = .fault e := by
  simp [readPort, h]

/-- Byte and read operations pass on the reason for which no record is found. -/
theorem exec_of_current_error {i : Instr} {s : State} {e : Fault} (h : s.current = .error e)
    (hi : isByteOp i = true ∨ isReadOp i = true) : exec i s = .fault e := by
  obtain hi | hi := hi
  · obtain ⟨rule, hrule⟩ := exec_eq_consume_of_isByteOp hi s
    rw [hrule, consume_of_current_error h]
  · obtain ⟨port, hport⟩ := exec_eq_readPort_of_isReadOp hi s
    rw [hport, readPort_of_current_error h]

/-- IDLE stops at an illegal code, though not in the power-up state (logs 5 and 6). -/
theorem exec_idle_of_illegal {s : State} (h : s.current = .error .illegalParserState) :
    exec .idle s = .fault .illegalParserState := by
  change execIdle s = _
  simp [execIdle, h]

/-! ### The statements -/

/-- Settles O43: an operation writes the record or the view, and neither holds the configuration or the
host's stream. -/
theorem configurationNeverChanges : Obligations.ConfigurationNeverChanges := by
  intro i s t h
  obtain ⟨m, rfl⟩ | rfl | ⟨o, rfl⟩ := exec_next_cases h
  · exact ⟨State.setRecord_cfg s m, State.setRecord_pending s m⟩
  · exact ⟨rfl, rfl⟩
  · exact ⟨State.observe_cfg s o, State.observe_pending s o⟩

/-- Settles O10: the record is `clearRecord`, whose elements and ports are read off. -/
theorem resetAndInitLeaveEmptyMessage : Obligations.ResetAndInitLeaveEmptyMessage := by
  intro i s hi
  have hexec : exec i s = .next (s.setRecord (clearRecord s.cfg)) := by
    obtain rfl | rfl := hi
    · exact exec_reset s
    · exact exec_init s
  exact ⟨clearRecord s.cfg, hexec, clearRecord_empty s.cfg, completeFlag_clearRecord s.cfg,
    commandPort_clearRecord s.cfg, statusPort_clearRecord s.cfg, fun _ hsel => fieldPort_clearRecord hsel⟩

/-- Settles O35: without a record none is found, and every byte and read operation looks for one. -/
theorem powerUpStopsBytesAndReads : Obligations.PowerUpStopsBytesAndReads := by
  intro s hr
  exact ⟨fun _ hi => exec_of_current_error (State.current_powerUp hr) hi,
    clearRecord s.cfg, exec_reset s, exec_init s, clearRecord_empty s.cfg⟩

/-- Settles O36: at an illegal code no record is found, which stops IDLE too. -/
theorem illegalCodesStop : Obligations.IllegalCodesStop := by
  intro s m hr hcode
  have hcur : s.current = .error .illegalParserState := State.current_illegal hr hcode
  refine ⟨fun i hreset hinit => ?_,
    clearRecord s.cfg, exec_reset s, exec_init s, clearRecord_empty s.cfg⟩
  obtain rfl | rfl | rfl | hi := instr_kinds i
  · exact absurd rfl hreset
  · exact absurd rfl hinit
  · exact exec_idle_of_illegal hcur
  · exact exec_of_current_error hcur hi

end Sys2Proof.Machine

/-! PROOFS. The statements of 20_memory.md: the text and bus forms of a byte space (R53, R54), and what a step, an
operation and a read depend on and change (R58, R61). -/

namespace Sys2Proof.Machine

/-! ### The text form of a byte space (R53) -/

/-- Before the text length no byte is 0x00. -/
theorem read_ne_zero_of_lt_textLength {buf : Memory} {cap i : Nat} (h : i < textLength buf cap) :
    Memory.read buf i ≠ 0#8 := by
  have hne := List.not_of_lt_findIdx h
  simpa [spaceBytes_getElem] using hne

/-- A text shorter than its space ends at a 0x00. -/
theorem read_textLength_eq_zero {buf : Memory} {cap : Nat} (h : textLength buf cap < cap) :
    Memory.read buf (textLength buf cap) = 0#8 := by
  have hlt : textLength buf cap < (spaceBytes buf cap).length := by simpa using h
  have hzero : ((spaceBytes buf cap)[textLength buf cap] == 0#8) = true := List.findIdx_getElem (w := hlt)
  rwa [spaceBytes_getElem, beq_iff_eq] at hzero

theorem hasTextLength_textLength (buf : Memory) (cap : Nat) :
    Memory.HasTextLength buf cap (textLength buf cap) :=
  ⟨textLength_le buf cap, fun _ => read_ne_zero_of_lt_textLength, read_textLength_eq_zero⟩

@[simp] theorem textValue_length (buf : Memory) (cap : Nat) :
    (textValue buf cap).length = textLength buf cap := by
  simp [textValue, textLength_le]

/-- Lane `i` of a space's bus is its byte `i`. -/
theorem spaceBytes_getElem? (buf : Memory) {cap i : Nat} (h : i < cap) :
    (spaceBytes buf cap)[i]? = some (Memory.read buf i) := by
  simp [spaceBytes, h]

theorem textValue_getElem? {buf : Memory} {cap i : Nat} (h : i < textLength buf cap) :
    (textValue buf cap)[i]? = some (Memory.read buf i) := by
  rw [textValue, List.getElem?_take_of_lt h]
  exact spaceBytes_getElem? buf (h.trans_le (textLength_le buf cap))

/-! ### The bus form of a byte space (R54) -/

theorem two_pow_lane_succ (i : Nat) : 2 ^ (8 * (i + 1)) = 256 * 2 ^ (8 * i) := by
  rw [Nat.mul_succ, Nat.pow_add, Nat.mul_comm]

/-- `n` byte lanes are a number of `8n` bits. -/
theorem busValue_lt (lanes : List Byte) : busValue lanes < 2 ^ (8 * lanes.length) := by
  induction lanes with
  | nil => simp [busValue]
  | cons b rest ih =>
    rw [busValue, List.length_cons, two_pow_lane_succ]
    have hb : b.toNat < 256 := b.isLt
    omega

/-- The bits from `8i+7` down to `8i` of the number on a bus are lane `i`. -/
theorem busValue_lane (lanes : List Byte) (i : Nat) (h : i < lanes.length) :
    busValue lanes / 2 ^ (8 * i) % 256 = lanes[i].toNat := by
  induction lanes generalizing i with
  | nil => simp at h
  | cons b rest ih =>
    have hb : b.toNat < 256 := b.isLt
    cases i with
    | zero => simp only [busValue, List.getElem_cons_zero]; omega
    | succ i =>
      have hrest : busValue (b :: rest) / 256 = busValue rest := by rw [busValue]; omega
      rw [two_pow_lane_succ, ← Nat.div_div_eq_div_mul, hrest, List.getElem_cons_succ]
      exact ih i (Nat.lt_of_succ_lt_succ h)

/-! ### What an operation depends on (R61) -/

/-- IDLE has a next state, the one it was given, exactly where no illegal code stands (R22, R101). -/
theorem exec_idle_eq_next_iff (s t : State) :
    exec .idle s = .next t ↔ t = s ∧ ∀ m, s.record = some m → m.parserState.toNat ≤ 5 := by
  constructor
  · refine fun h => ⟨eq_of_exec_idle h, fun m hr => Nat.le_of_not_lt fun hcode => ?_⟩
    rw [exec_idle_of_illegal (State.current_illegal hr hcode)] at h
    cases h
  · rintro ⟨rfl, hlegal⟩
    change execIdle t = .next t
    cases hr : t.record with
    | none => simp [execIdle, State.current_powerUp hr]
    | some m =>
      have hcode : ParserState.ofCode m.parserState ≠ none := by
        rw [Ne, ParserState.ofCode_eq_none_iff]
        exact Nat.not_lt.2 (hlegal m hr)
      obtain ⟨p, hp⟩ := Option.ne_none_iff_exists'.1 hcode
      simp [execIdle, State.current_of_record hr (ParserState.code_of_ofCode hp).symm]

/-- An operation that consumes a byte reads no port. -/
theorem isReadOp_eq_false_of_isByteOp {i : Instr} (h : isByteOp i = true) : isReadOp i = false := by
  cases i with
  | pbStart | pbSep | pbEnd | pbDigit b | pbOther b => rfl
  | _ => cases h

/-- States with equal configurations consume a byte by the same rule. -/
theorem exec_eq_consume_of_cfg_eq {i : Instr} (h : isByteOp i = true) {s₁ s₂ : State} (hcfg : s₁.cfg = s₂.cfg) :
    ∃ rule, exec i s₁ = consume s₁ rule ∧ exec i s₂ = consume s₂ rule := by
  cases i with
  | pbStart | pbSep | pbEnd | pbDigit b | pbOther b => exact ⟨_, rfl, by rw [hcfg]; rfl⟩
  | _ => cases h

/-- States with equal configurations show the same port to a read. -/
theorem exec_eq_readPort_of_cfg_eq {i : Instr} (h : isReadOp i = true) {s₁ s₂ : State} (hcfg : s₁.cfg = s₂.cfg) :
    ∃ port, exec i s₁ = readPort s₁ port ∧ exec i s₂ = readPort s₂ port := by
  cases i with
  | rdField sel | rdFieldOor sel => exact ⟨fieldPort s₁.cfg sel, rfl, by rw [hcfg]; rfl⟩
  | rdCommand => exact ⟨fun m => .ok (commandPort s₁.cfg m), rfl, by rw [hcfg]; rfl⟩
  | rdSource => exact ⟨fun m => .ok (.source m.source), rfl, rfl⟩
  | rdDest => exact ⟨fun m => .ok (.dest m.dest), rfl, rfl⟩
  | rdStatus => exact ⟨fun m => .ok (statusPort m), rfl, rfl⟩
  | _ => cases h

/-- By one rule, equal records become equal records. -/
theorem consume_of_record_eq {s₁ s₂ t₁ : State} {rule : ParserState → Message → Except Fault Message}
    (hrec : s₁.record = s₂.record) (h : consume s₁ rule = .next t₁) :
    ∃ t₂, consume s₂ rule = .next t₂ ∧ t₁.record = t₂.record := by
  obtain ⟨p, m, m', hr, hp, hm, rfl⟩ := (consume_eq_next_iff s₁ t₁ rule).1 h
  exact ⟨s₂.setRecord m', consume_of_ok (hrec.symm.trans hr) hp hm, rfl⟩

/-- Through one port, equal records look equal, and both stay. -/
theorem readPort_of_record_eq {s₁ s₂ t₁ : State} {port : Message → Except Fault Observation}
    (hrec : s₁.record = s₂.record) (h : readPort s₁ port = .next t₁) :
    ∃ t₂, readPort s₂ port = .next t₂ ∧ t₁.record = t₂.record ∧ t₁.observed = t₂.observed := by
  obtain ⟨p, m, o, hr, hp, ho, rfl⟩ := (readPort_eq_next_iff s₁ t₁ port).1 h
  exact ⟨s₂.observe o, (readPort_eq_next_iff _ _ _).2 ⟨p, m, o, hrec.symm.trans hr, hp, ho, rfl⟩, hrec, rfl⟩

/-! ### One step (R61) -/

theorem decode_stmtIdle {cfg : Config} (h : cfg.wf = true) : decode cfg stmtIdle = .ok .idle := by
  simp only [decode, stmtIdle, h, if_true]
  rfl

/-- A step runs what it fetched, with that input taken off the host's stream. -/
theorem step_of_decode {s : State} {i : Instr} (h : decode s.cfg s.fetch = .ok i) :
    step s = exec i s.advance := by
  rw [step, h]

theorem State.fetch_of_pending_cons {s : State} {x : Stimulus} {rest : List Stimulus}
    (h : s.pending = x :: rest) : s.fetch = x := by
  rw [State.fetch, h]

theorem State.fetch_of_pending_nil {s : State} (h : s.pending = []) : s.fetch = stmtIdle := by
  rw [State.fetch, h, stmtIdle]

theorem State.advance_of_pending_cons {s : State} {x : Stimulus} {rest : List Stimulus}
    (h : s.pending = x :: rest) : s.advance = { s with pending := rest } := by
  rw [State.advance, h, List.tail_cons, State.setPending]

theorem State.advance_of_pending_nil {s : State} (h : s.pending = []) : s.advance = s := by
  rw [State.advance, h, List.tail_nil, State.setPending, ← h]

/-! ### The statements -/

/-- Settles O33: the text length is the first index of the lanes that holds 0x00, and the text value the lanes
before it. -/
theorem textLengthIsLeastZero : Obligations.TextLengthIsLeastZero := fun buf cap =>
  ⟨hasTextLength_textLength buf cap, textValue_length buf cap, fun _ => textValue_getElem?⟩

/-- Settles O34: the bus is the number whose base-256 digits are the bytes of the space. -/
theorem busLanesFollowByteOrder : Obligations.BusLanesFollowByteOrder := by
  intro buf cap
  constructor
  · have hwidth := busValue_lt (spaceBytes buf cap)
    rwa [spaceBytes_length] at hwidth
  · intro i hi
    have hlane : i < (spaceBytes buf cap).length := by rwa [spaceBytes_length]
    rw [busValue_lane _ i hlane, spaceBytes_getElem]

/-- Settles O46: two states that agree on configuration and record use the same rule or port on the same record. -/
theorem nextRecordDependsOnRecordAndInput : Obligations.NextRecordDependsOnRecordAndInput := by
  intro i s₁ s₂ t₁ hcfg hrec h
  obtain rfl | rfl | rfl | hi | hi := instr_kinds i
  · obtain rfl := Host.Outcome.next.inj h
    exact ⟨_, exec_reset s₂, congrArg (fun cfg => some (clearRecord cfg)) hcfg, by simp [isReadOp]⟩
  · obtain rfl := Host.Outcome.next.inj h
    exact ⟨_, exec_init s₂, congrArg (fun cfg => some (clearRecord cfg)) hcfg, by simp [isReadOp]⟩
  · obtain ⟨rfl, hlegal⟩ := (exec_idle_eq_next_iff s₁ t₁).1 h
    rw [hrec] at hlegal
    exact ⟨s₂, (exec_idle_eq_next_iff s₂ s₂).2 ⟨rfl, hlegal⟩, hrec, by simp [isReadOp]⟩
  · obtain ⟨rule, h₁, h₂⟩ := exec_eq_consume_of_cfg_eq hi hcfg
    obtain ⟨t₂, ht₂, hrec'⟩ := consume_of_record_eq hrec (h₁.symm.trans h)
    exact ⟨t₂, h₂.trans ht₂, hrec', by simp [isReadOp_eq_false_of_isByteOp hi]⟩
  · obtain ⟨port, h₁, h₂⟩ := exec_eq_readPort_of_cfg_eq hi hcfg
    obtain ⟨t₂, ht₂, hrec', hobs⟩ := readPort_of_record_eq hrec (h₁.symm.trans h)
    exact ⟨t₂, h₂.trans ht₂, hrec', fun _ => hobs⟩

/-- Settles O8: the fetched input is the head of the host's stream, and an IDLE edge where the stream is empty. -/
theorem stepRunsDecodedOperation : Obligations.StepRunsDecodedOperation := by
  intro s hwf
  constructor
  · intro x rest i hpending hdecode
    rw [← State.advance_of_pending_cons hpending]
    apply step_of_decode
    rw [State.fetch_of_pending_cons hpending, hdecode]
  · intro hpending
    have hfetch : decode s.cfg s.fetch = .ok .idle := by
      rw [State.fetch_of_pending_nil hpending, decode_stmtIdle hwf]
    rw [step_of_decode hfetch, State.advance_of_pending_nil hpending]

/-- Settles O31: a read that shows something only puts it into the host's view. -/
theorem readsChangeOnlyTheView : Obligations.ReadsChangeOnlyTheView := by
  intro i s t hi h
  obtain ⟨port, hport⟩ := exec_eq_readPort_of_isReadOp hi s
  obtain ⟨_, _, o, _, _, _, ht⟩ := (readPort_eq_next_iff s t port).1 (hport.symm.trans h)
  exact ⟨o, ht⟩

end Sys2Proof.Machine

/-! PROOFS. The statements of 30_encoding.md: the control word field by field (R70), the rows of the opcode table and
the decoder (R71 to R76), the round trip with the encoder, progress of a step (R72, R200), and the length of a frame
(R78). -/

namespace Sys2Proof

/-! ### The control word field by field (R70) -/

/-- Two control words are equal when their four fields are. -/
theorem controlWord_ext_iff (v w : ControlWord) :
    v = w ↔ ctrlRst v = ctrlRst w ∧ ctrlInit v = ctrlInit w ∧ ctrlValid v = ctrlValid w ∧ ctrlByte v = ctrlByte w := by
  constructor
  · rintro rfl
    exact ⟨rfl, rfl, rfl, rfl⟩
  · rintro ⟨hrst, hinit, hvalid, hbyte⟩
    refine BitVec.eq_of_getLsbD_eq fun k hk => ?_
    obtain hlow | rfl | rfl | rfl : k < 8 ∨ k = 8 ∨ k = 9 ∨ k = 10 := by omega
    · simpa [ctrlByte, hlow] using congrArg (·.getLsbD k) hbyte
    · exact hvalid
    · exact hinit
    · exact hrst

/-- A masked word is looked at field by field. -/
theorem and_eq_iff (w mask bits : ControlWord) :
    w &&& mask = bits ↔
      (ctrlRst w && ctrlRst mask) = ctrlRst bits ∧ (ctrlInit w && ctrlInit mask) = ctrlInit bits ∧
        (ctrlValid w && ctrlValid mask) = ctrlValid bits ∧ ctrlByte w &&& ctrlByte mask = ctrlByte bits := by
  simp only [controlWord_ext_iff, ctrlRst, ctrlInit, ctrlValid, ctrlByte, BitVec.getLsbD_and, BitVec.extractLsb'_and]

/-- A word is the word of a consumed byte when it requests only that byte. -/
theorem eq_byteWord_iff (w : ControlWord) (b : Byte) :
    w = byteWord b ↔ ctrlRst w = false ∧ ctrlInit w = false ∧ ctrlValid w = true ∧ ctrlByte w = b := by
  simp [controlWord_ext_iff]

/-- The four kinds of control words, in the order of R71. -/
theorem controlWord_kinds (w : ControlWord) :
    ctrlRst w = true ∨ (ctrlRst w = false ∧ ctrlInit w = true) ∨
      (ctrlRst w = false ∧ ctrlInit w = false ∧ ctrlValid w = false) ∨ w = byteWord (ctrlByte w) := by
  rw [eq_byteWord_iff]
  cases ctrlRst w with
  | true => exact .inl rfl
  | false =>
    cases ctrlInit w with
    | true => exact .inr (.inl ⟨rfl, rfl⟩)
    | false =>
      cases ctrlValid w with
      | true => exact .inr (.inr (.inr ⟨rfl, rfl, rfl, rfl⟩))
      | false => exact .inr (.inr (.inl ⟨rfl, rfl, rfl⟩))

/-! ### The masks of the opcode table -/

theorem and_resetMask_iff (w : ControlWord) : w &&& 0x400#11 = 0x400#11 ↔ ctrlRst w = true := by
  simp [and_eq_iff, ctrlRst, ctrlInit, ctrlValid, ctrlByte]

theorem and_initMask_iff (w : ControlWord) :
    w &&& 0x600#11 = 0x200#11 ↔ ctrlRst w = false ∧ ctrlInit w = true := by
  simp [and_eq_iff, ctrlRst, ctrlInit, ctrlValid, ctrlByte]

theorem and_requestMask_eq_zero_iff (w : ControlWord) :
    w &&& 0x700#11 = 0x000#11 ↔ ctrlRst w = false ∧ ctrlInit w = false ∧ ctrlValid w = false := by
  simp [and_eq_iff, ctrlRst, ctrlInit, ctrlValid, ctrlByte]

theorem and_requestMask_eq_byte_iff (w : ControlWord) :
    w &&& 0x700#11 = 0x100#11 ↔ w = byteWord (ctrlByte w) := by
  rw [eq_byteWord_iff]
  simp [and_eq_iff, ctrlRst, ctrlInit, ctrlValid, ctrlByte]

/-- A word that the digit row's mask and match fit requests a byte. -/
theorem eq_byteWord_of_digitMask {w : ControlWord} (h : w &&& 0x7F0#11 = 0x130#11) : w = byteWord (ctrlByte w) := by
  have hreq : w &&& 0x7F0#11 &&& 0x700#11 = 0x130#11 &&& 0x700#11 := by rw [h]
  rw [BitVec.and_assoc] at hreq
  exact (and_requestMask_eq_byte_iff w).1 hreq

/-- The digit row's match and condition fit digit bytes only. -/
theorem isDigit_of_digitRow (b : Byte) (hmask : byteWord b &&& 0x7F0#11 = 0x130#11)
    (hlow : ((byteWord b).extractLsb' 0 4).toNat ≤ 9) : Machine.isDigit b = true := by
  revert b; decide

/-! ### The rows of the opcode table -/

theorem rowMatches_reset_iff (cfg : Config) (w : ControlWord) :
    rowMatches cfg .reset w = true ↔ ctrlRst w = true := by
  simp [rowMatches, rowMatch, rowMask, and_resetMask_iff]

theorem rowMatches_init_iff (cfg : Config) (w : ControlWord) :
    rowMatches cfg .init w = true ↔ ctrlRst w = false ∧ ctrlInit w = true := by
  simp [rowMatches, rowMatch, rowMask, and_initMask_iff]

theorem rowMatches_idle_iff (cfg : Config) (w : ControlWord) :
    rowMatches cfg .idle w = true ↔ ctrlRst w = false ∧ ctrlInit w = false ∧ ctrlValid w = false := by
  simp only [rowMatches, rowMatch, rowMask, Bool.and_true, beq_iff_eq, and_requestMask_eq_zero_iff]

/-- The marker rows' mask looks at every bit. -/
theorem and_markerMask (w : ControlWord) : w &&& 0x7FF#11 = w := BitVec.and_allOnes

theorem rowMatches_pbStart_iff (cfg : Config) (w : ControlWord) :
    rowMatches cfg .pbStart w = true ↔ w = byteWord cfg.startByte := by
  simp only [rowMatches, rowMatch, rowMask, and_markerMask, byteWord, Bool.and_true, beq_iff_eq]

theorem rowMatches_pbSep_iff (cfg : Config) (w : ControlWord) :
    rowMatches cfg .pbSep w = true ↔ w = byteWord cfg.sepByte := by
  simp only [rowMatches, rowMatch, rowMask, and_markerMask, byteWord, Bool.and_true, beq_iff_eq]

theorem rowMatches_pbEnd_iff (cfg : Config) (w : ControlWord) :
    rowMatches cfg .pbEnd w = true ↔ w = byteWord cfg.endByte := by
  simp only [rowMatches, rowMatch, rowMask, and_markerMask, byteWord, Bool.and_true, beq_iff_eq]

theorem rowMatches_pbDigit_iff (cfg : Config) (w : ControlWord) (b : Byte) :
    rowMatches cfg (.pbDigit b) w = true ↔ w = byteWord b ∧ Machine.isDigit b = true := by
  simp only [rowMatches, rowMatch, rowMask, Bool.and_eq_true, beq_iff_eq, decide_eq_true_eq]
  constructor
  · rintro ⟨hmask, hlow, rfl⟩
    have hw : w = byteWord (ctrlByte w) := eq_byteWord_of_digitMask hmask
    rw [hw] at hmask hlow
    exact ⟨hw, isDigit_of_digitRow _ hmask hlow⟩
  · rintro ⟨rfl, hdigit⟩
    obtain ⟨hmask, hlow⟩ := Laws.EncodeMatchesRow.digit_row b hdigit
    exact ⟨hmask, hlow, ctrlByte_byteWord b⟩

theorem rowMatches_pbOther_iff (cfg : Config) (w : ControlWord) (b : Byte) :
    rowMatches cfg (.pbOther b) w = true ↔ w = byteWord b := by
  simp only [rowMatches, rowMatch, rowMask, Bool.and_eq_true, beq_iff_eq, and_requestMask_eq_byte_iff]
  constructor
  · rintro ⟨hw, rfl⟩
    exact hw
  · rintro rfl
    simp

/-- The READ and PORT rows match no control word. -/
theorem rowMatches_of_isReadOp {i : Instr} (h : Machine.isReadOp i = true) (cfg : Config) (w : ControlWord) :
    rowMatches cfg i w = false := by
  cases i with
  | rdField sel | rdFieldOor sel | rdCommand | rdSource | rdDest | rdStatus => rfl
  | _ => cases h

/-! ### The operation of a consumed byte (R71, R73) -/

theorem decodeByte_startByte (cfg : Config) : decodeByte cfg cfg.startByte = .pbStart := by
  rw [decodeByte, (Machine.cls_eq_start_iff cfg _).2 rfl]

theorem decodeByte_sepByte {cfg : Config} (h : cfg.wf = true) : decodeByte cfg cfg.sepByte = .pbSep := by
  rw [decodeByte, Machine.cls_sepByte h]

theorem decodeByte_endByte {cfg : Config} (h : cfg.wf = true) : decodeByte cfg cfg.endByte = .pbEnd := by
  rw [decodeByte, Machine.cls_endByte h]

theorem decodeByte_content {cfg : Config} {b : Byte} (h : Machine.cls cfg b = .content) :
    decodeByte cfg b = if Machine.isDigit b then .pbDigit b else .pbOther b := by
  rw [decodeByte, h]

theorem decodeByte_digit {cfg : Config} {b : Byte} (h : Machine.cls cfg b = .content)
    (hdigit : Machine.isDigit b = true) : decodeByte cfg b = .pbDigit b := by
  rw [decodeByte_content h, if_pos hdigit]

theorem decodeByte_other {cfg : Config} {b : Byte} (h : Machine.cls cfg b = .content)
    (hdigit : Machine.isDigit b = false) : decodeByte cfg b = .pbOther b := by
  rw [decodeByte_content h, hdigit, if_neg Bool.false_ne_true]

/-- A byte is one of the three markers, or a digit or another content byte; its operation says which. -/
theorem decodeByte_cases (cfg : Config) (b : Byte) :
    (b = cfg.startByte ∧ decodeByte cfg b = .pbStart) ∨ (b = cfg.sepByte ∧ decodeByte cfg b = .pbSep) ∨
      (b = cfg.endByte ∧ decodeByte cfg b = .pbEnd) ∨
      (Machine.cls cfg b = .content ∧ Machine.isDigit b = true ∧ decodeByte cfg b = .pbDigit b) ∨
      (Machine.cls cfg b = .content ∧ Machine.isDigit b = false ∧ decodeByte cfg b = .pbOther b) := by
  by_cases hstart : b = cfg.startByte
  · subst hstart
    exact .inl ⟨rfl, decodeByte_startByte cfg⟩
  by_cases hsep : b = cfg.sepByte
  · exact .inr (.inl ⟨hsep, by simp [decodeByte, Machine.cls, hsep, hsep ▸ hstart]⟩)
  by_cases hend : b = cfg.endByte
  · exact .inr (.inr (.inl ⟨hend, by simp [decodeByte, Machine.cls, hend, hend ▸ hstart, hend ▸ hsep]⟩))
  have hcontent : Machine.cls cfg b = .content := (Machine.cls_eq_content_iff cfg b).2 ⟨hstart, hsep, hend⟩
  cases hdigit : Machine.isDigit b with
  | true => exact .inr (.inr (.inr (.inl ⟨hcontent, rfl, decodeByte_digit hcontent hdigit⟩)))
  | false => exact .inr (.inr (.inr (.inr ⟨hcontent, rfl, decodeByte_other hcontent hdigit⟩)))

/-! ### The operation of a control word, a select and a port (R71, R76) -/

theorem decodeWord_of_rst {w : ControlWord} (h : ctrlRst w = true) (cfg : Config) : decodeWord cfg w = .reset := by
  simp [decodeWord, h]

theorem decodeWord_of_init {w : ControlWord} (hrst : ctrlRst w = false) (hinit : ctrlInit w = true) (cfg : Config) :
    decodeWord cfg w = .init := by
  simp [decodeWord, hrst, hinit]

theorem decodeWord_of_idle {w : ControlWord} (hrst : ctrlRst w = false) (hinit : ctrlInit w = false)
    (hvalid : ctrlValid w = false) (cfg : Config) : decodeWord cfg w = .idle := by
  simp [decodeWord, hrst, hinit, hvalid]

theorem decodeSelect_of_lt {cfg : Config} {sel : Byte} (h : sel.toNat < cfg.numFields) :
    decodeSelect cfg sel = .rdField sel := if_pos h

theorem decodeSelect_of_le {cfg : Config} {sel : Byte} (h : cfg.numFields ≤ sel.toNat) :
    decodeSelect cfg sel = .rdFieldOor sel := if_neg (Nat.not_lt.2 h)

theorem decode_edge {cfg : Config} (h : cfg.wf = true) (w : ControlWord) :
    decode cfg (.edge w) = .ok (decodeWord cfg w) := if_pos h

theorem decode_read {cfg : Config} (h : cfg.wf = true) (sel : Byte) :
    decode cfg (.read sel) = .ok (decodeSelect cfg sel) := if_pos h

theorem decode_port {cfg : Config} (h : cfg.wf = true) (p : Port) :
    decode cfg (.port p) = .ok (decodePort p) := if_pos h

/-- With a well-formed configuration the decoder answers an operation to whatever the host presents (R72). -/
theorem exists_decode {cfg : Config} (h : cfg.wf = true) (x : Stimulus) : ∃ i, decode cfg x = .ok i := by
  cases x with
  | edge w => exact ⟨_, decode_edge h w⟩
  | read sel => exact ⟨_, decode_read h sel⟩
  | port p => exact ⟨_, decode_port h p⟩

/-- With any other configuration it answers none (R204). -/
theorem wf_of_decode {cfg : Config} {x : Stimulus} {i : Instr} (h : decode cfg x = .ok i) : cfg.wf = true := by
  by_contra hwf
  have herror : decode cfg x = .error .illFormedConfig := if_neg hwf
  cases herror.symm.trans h

/-! ### The decoder and the rows (R71, R72) -/

theorem rowMatches_decodeByte (cfg : Config) (b : Byte) :
    rowMatches cfg (decodeByte cfg b) (byteWord b) = true := by
  obtain ⟨rfl, h⟩ | ⟨rfl, h⟩ | ⟨rfl, h⟩ | ⟨-, hdigit, h⟩ | ⟨-, -, h⟩ := decodeByte_cases cfg b <;> rw [h]
  · exact (rowMatches_pbStart_iff cfg _).2 rfl
  · exact (rowMatches_pbSep_iff cfg _).2 rfl
  · exact (rowMatches_pbEnd_iff cfg _).2 rfl
  · exact (rowMatches_pbDigit_iff cfg _ b).2 ⟨rfl, hdigit⟩
  · exact (rowMatches_pbOther_iff cfg _ b).2 rfl

/-- The row of the decoded operation matches the word. -/
theorem rowMatches_decodeWord (cfg : Config) (w : ControlWord) : rowMatches cfg (decodeWord cfg w) w = true := by
  obtain hrst | ⟨hrst, hinit⟩ | ⟨hrst, hinit, hvalid⟩ | hbyte := controlWord_kinds w
  · rw [decodeWord_of_rst hrst]
    exact (rowMatches_reset_iff cfg w).2 hrst
  · rw [decodeWord_of_init hrst hinit]
    exact (rowMatches_init_iff cfg w).2 ⟨hrst, hinit⟩
  · rw [decodeWord_of_idle hrst hinit hvalid]
    exact (rowMatches_idle_iff cfg w).2 ⟨hrst, hinit, hvalid⟩
  · rw [hbyte, decodeWord_byteWord]
    exact rowMatches_decodeByte cfg _

/-- A matching row that the decoder does not take is PB_OTHER's: the other rows exclude each other. -/
theorem eq_pbOther_of_rowMatches {cfg : Config} (hwf : cfg.wf = true) {w : ControlWord} {j : Instr}
    (hj : rowMatches cfg j w = true) (hne : j ≠ decodeWord cfg w) : ∃ b, j = .pbOther b ∧ w = byteWord b := by
  cases j with
  | reset =>
    exact absurd (decodeWord_of_rst ((rowMatches_reset_iff cfg w).1 hj) cfg).symm hne
  | init =>
    obtain ⟨hrst, hinit⟩ := (rowMatches_init_iff cfg w).1 hj
    exact absurd (decodeWord_of_init hrst hinit cfg).symm hne
  | idle =>
    obtain ⟨hrst, hinit, hvalid⟩ := (rowMatches_idle_iff cfg w).1 hj
    exact absurd (decodeWord_of_idle hrst hinit hvalid cfg).symm hne
  | pbStart =>
    rw [(rowMatches_pbStart_iff cfg w).1 hj, decodeWord_byteWord, decodeByte_startByte] at hne
    exact absurd rfl hne
  | pbSep =>
    rw [(rowMatches_pbSep_iff cfg w).1 hj, decodeWord_byteWord, decodeByte_sepByte hwf] at hne
    exact absurd rfl hne
  | pbEnd =>
    rw [(rowMatches_pbEnd_iff cfg w).1 hj, decodeWord_byteWord, decodeByte_endByte hwf] at hne
    exact absurd rfl hne
  | pbDigit b =>
    obtain ⟨hw, hdigit⟩ := (rowMatches_pbDigit_iff cfg w b).1 hj
    rw [hw, decodeWord_byteWord, decodeByte_digit (Machine.cls_digit hwf hdigit) hdigit] at hne
    exact absurd rfl hne
  | pbOther b => exact ⟨b, rfl, (rowMatches_pbOther_iff cfg w b).1 hj⟩
  | rdField sel | rdFieldOor sel | rdCommand | rdSource | rdDest | rdStatus =>
    rw [rowMatches_of_isReadOp rfl] at hj
    cases hj

/-- An operation decoded from a byte comes before PB_OTHER, unless it is PB_OTHER. -/
theorem rowPriority_decodeByte {cfg : Config} {b : Byte} (h : decodeByte cfg b ≠ .pbOther b) :
    ∃ p, rowPriority (decodeByte cfg b) = some p ∧ p < 6 := by
  obtain ⟨-, hi⟩ | ⟨-, hi⟩ | ⟨-, hi⟩ | ⟨-, -, hi⟩ | ⟨-, -, hi⟩ := decodeByte_cases cfg b
  · exact ⟨4, by rw [hi, rowPriority], by decide⟩
  · exact ⟨4, by rw [hi, rowPriority], by decide⟩
  · exact ⟨4, by rw [hi, rowPriority], by decide⟩
  · exact ⟨5, by rw [hi, rowPriority], by decide⟩
  · exact absurd hi h

/-! ### The decoder and the encoder -/

theorem decodeByte_wf (cfg : Config) (b : Byte) : (decodeByte cfg b).wf cfg = true := by
  obtain ⟨-, h⟩ | ⟨-, h⟩ | ⟨-, h⟩ | ⟨hcontent, hdigit, h⟩ | ⟨hcontent, hdigit, h⟩ := decodeByte_cases cfg b
  · rw [h, Instr.wf]
  · rw [h, Instr.wf]
  · rw [h, Instr.wf]
  · simp [h, Instr.wf, hcontent, hdigit]
  · simp [h, Instr.wf, hcontent, hdigit]

theorem encode_decodeByte (cfg : Config) (b : Byte) : encode cfg (decodeByte cfg b) = .edge (byteWord b) := by
  obtain ⟨rfl, h⟩ | ⟨rfl, h⟩ | ⟨rfl, h⟩ | ⟨-, -, h⟩ | ⟨-, -, h⟩ := decodeByte_cases cfg b <;> rw [h, encode]

theorem decodeWord_wf (cfg : Config) (w : ControlWord) : (decodeWord cfg w).wf cfg = true := by
  obtain hrst | ⟨hrst, hinit⟩ | ⟨hrst, hinit, hvalid⟩ | hbyte := controlWord_kinds w
  · rw [decodeWord_of_rst hrst, Instr.wf]
  · rw [decodeWord_of_init hrst hinit, Instr.wf]
  · rw [decodeWord_of_idle hrst hinit hvalid, Instr.wf]
  · rw [hbyte, decodeWord_byteWord]
    exact decodeByte_wf cfg _

theorem decodeSelect_wf (cfg : Config) (sel : Byte) : (decodeSelect cfg sel).wf cfg = true := by
  obtain h | h := Nat.lt_or_ge sel.toNat cfg.numFields
  · rw [decodeSelect_of_lt h]
    exact decide_eq_true h
  · rw [decodeSelect_of_le h]
    exact decide_eq_true h

theorem encode_decodeSelect (cfg : Config) (sel : Byte) : encode cfg (decodeSelect cfg sel) = .read sel := by
  obtain h | h := Nat.lt_or_ge sel.toNat cfg.numFields
  · rw [decodeSelect_of_lt h, encode]
  · rw [decodeSelect_of_le h, encode]

theorem decodePort_wf (cfg : Config) (p : Port) : (decodePort p).wf cfg = true := by
  cases p <;> rfl

theorem encode_decodePort (cfg : Config) (p : Port) : encode cfg (decodePort p) = .port p := by
  cases p <;> rfl

/-- The encoder gives back the bits that the decoded row's mask looks at, and every bit of a consumed byte. -/
theorem encode_decodeWord (cfg : Config) (w : ControlWord) :
    ∃ v, encode cfg (decodeWord cfg w) = .edge v ∧
      v &&& rowMask (decodeWord cfg w) = w &&& rowMask (decodeWord cfg w) ∧
      (Machine.isByteOp (decodeWord cfg w) = true → v = w) := by
  obtain hrst | ⟨hrst, hinit⟩ | ⟨hrst, hinit, hvalid⟩ | hbyte := controlWord_kinds w
  · rw [decodeWord_of_rst hrst]
    exact ⟨0x400#11, rfl, ((and_resetMask_iff w).2 hrst).symm, fun h => by cases h⟩
  · rw [decodeWord_of_init hrst hinit]
    exact ⟨0x200#11, rfl, ((and_initMask_iff w).2 ⟨hrst, hinit⟩).symm, fun h => by cases h⟩
  · rw [decodeWord_of_idle hrst hinit hvalid]
    exact ⟨0x000#11, rfl, ((and_requestMask_eq_zero_iff w).2 ⟨hrst, hinit, hvalid⟩).symm, fun h => by cases h⟩
  · refine ⟨w, ?_, rfl, fun _ => rfl⟩
    rw [hbyte, decodeWord_byteWord]
    exact encode_decodeByte cfg _

/-! ### The statements about encoding -/

/-- Settles O3: a control operation's word requests it alone, a byte operation's word carries its byte, whose class is
the operation's, and a select lies on its operation's side of NUM_FIELDS. -/
theorem decodeInvertsEncode : Obligations.DecodeInvertsEncode := by
  intro cfg i hwf hi
  cases i with
  | reset | init | idle => exact decode_edge hwf _
  | pbStart => rw [encode, decode_edge hwf, decodeWord_byteWord, decodeByte_startByte]
  | pbSep => rw [encode, decode_edge hwf, decodeWord_byteWord, decodeByte_sepByte hwf]
  | pbEnd => rw [encode, decode_edge hwf, decodeWord_byteWord, decodeByte_endByte hwf]
  | pbDigit b =>
    obtain ⟨hcontent, hdigit⟩ : Machine.cls cfg b = .content ∧ Machine.isDigit b = true := by
      simpa [Instr.wf] using hi
    rw [encode, decode_edge hwf, decodeWord_byteWord, decodeByte_digit hcontent hdigit]
  | pbOther b =>
    obtain ⟨hcontent, hdigit⟩ : Machine.cls cfg b = .content ∧ Machine.isDigit b = false := by
      simpa [Instr.wf] using hi
    rw [encode, decode_edge hwf, decodeWord_byteWord, decodeByte_other hcontent hdigit]
  | rdField sel => rw [encode, decode_read hwf, decodeSelect_of_lt (of_decide_eq_true hi)]
  | rdFieldOor sel => rw [encode, decode_read hwf, decodeSelect_of_le (of_decide_eq_true hi)]
  | rdCommand | rdSource | rdDest | rdStatus => exact decode_port hwf _

/-- Settles O2: the decoded row matches, and any other matching row is PB_OTHER's, which has the highest number. -/
theorem decoderTakesLowestPriorityRow : Obligations.DecoderTakesLowestPriorityRow := by
  intro cfg w hwf
  refine ⟨decodeWord cfg w, decode_edge hwf w, rowMatches_decodeWord cfg w, fun j hj hne => ?_⟩
  obtain ⟨b, rfl, rfl⟩ := eq_pbOther_of_rowMatches hwf hj hne
  rw [decodeWord_byteWord] at hne ⊢
  obtain ⟨p, hp, hlt⟩ := rowPriority_decodeByte hne.symm
  exact ⟨p, 6, hp, rfl, hlt⟩

/-- Settles O4, by the form in which the input was presented. -/
theorem encodeGivesBackDecodedBits : Obligations.EncodeGivesBackDecodedBits := by
  intro cfg x i h
  have hwf : cfg.wf = true := wf_of_decode h
  cases x with
  | edge w =>
    obtain rfl := Except.ok.inj ((decode_edge hwf w).symm.trans h)
    refine ⟨decodeWord_wf cfg w, ?_, by simp, by simp⟩
    rintro _ ⟨⟩
    exact encode_decodeWord cfg w
  | read sel =>
    obtain rfl := Except.ok.inj ((decode_read hwf sel).symm.trans h)
    refine ⟨decodeSelect_wf cfg sel, by simp, ?_, by simp⟩
    rintro _ ⟨⟩
    exact encode_decodeSelect cfg sel
  | port p =>
    obtain rfl := Except.ok.inj ((decode_port hwf p).symm.trans h)
    refine ⟨decodePort_wf cfg p, by simp, by simp, ?_⟩
    rintro _ ⟨⟩
    exact encode_decodePort cfg p

/-- Settles O1, by the equations of the decoder, one for each request and each class of the byte. -/
theorem controlWordSelectsByPriority : Obligations.ControlWordSelectsByPriority := by
  intro cfg w hwf
  simp only [decode_edge hwf, Except.ok.injEq]
  refine ⟨fun hrst => decodeWord_of_rst hrst cfg, fun hrst hinit => decodeWord_of_init hrst hinit cfg,
    fun hrst hinit hvalid => decodeWord_of_idle hrst hinit hvalid cfg, fun hrst hinit hvalid b hb => ?_⟩
  obtain rfl : w = byteWord b := (eq_byteWord_iff w b).2 ⟨hrst, hinit, hvalid, hb.symm⟩
  rw [decodeWord_byteWord]
  refine ⟨?_, ?_, ?_, fun hstart hsep hend => ?_⟩
  · rintro rfl
    exact decodeByte_startByte cfg
  · rintro rfl
    exact decodeByte_sepByte hwf
  · rintro rfl
    exact decodeByte_endByte hwf
  · have hcontent : Machine.cls cfg b = .content := (Machine.cls_eq_content_iff cfg b).2 ⟨hstart, hsep, hend⟩
    refine ⟨fun h => decodeByte_digit hcontent (decide_eq_true h), fun h => decodeByte_other hcontent ?_⟩
    exact decide_eq_false (by omega)

/-- Settles O5, by running the decoder on each word. -/
theorem referenceWordsDecode : Obligations.ReferenceWordsDecode := by
  unfold Obligations.ReferenceWordsDecode
  decide

/-- Settles O6: the select is compared with NUM_FIELDS, and each port has one operation. -/
theorem readSelectSplitsAtNumFields : Obligations.ReadSelectSplitsAtNumFields := by
  intro cfg sel hwf
  refine ⟨fun h => ?_, fun h => ?_, decode_port hwf _, decode_port hwf _, decode_port hwf _, decode_port hwf _⟩
  · rw [decode_read hwf, decodeSelect_of_lt h]
  · rw [decode_read hwf, decodeSelect_of_le h]

end Sys2Proof

namespace Sys2Proof.Machine

/-! ### Progress in an initialised machine (R72, R200) -/

/-- A legal code stands for a parser state. -/
theorem Message.Inv.exists_code {cfg : Config} {m : Message} (h : m.Inv cfg) :
    ∃ p : ParserState, m.parserState = p.code := by
  have hcode : ParserState.ofCode m.parserState ≠ none := by
    rw [Ne, ParserState.ofCode_eq_none_iff]
    exact Nat.not_lt.2 h.ranges.legalCode
  obtain ⟨p, hp⟩ := Option.ne_none_iff_exists'.1 hcode
  exact ⟨p, (ParserState.code_of_ofCode hp).symm⟩

/-- Slots below NUM_FIELDS are there. -/
theorem Message.Inv.exists_slot {cfg : Config} {m : Message} (h : m.Inv cfg) {j : Nat} (hj : j < cfg.numFields) :
    ∃ buf, m.fields[j]? = some buf :=
  ⟨_, List.getElem?_eq_getElem (h.shape.slots.symm ▸ hj)⟩

/-- ACC_FIELD finds its slot in a record that meets the invariant. -/
theorem Message.Inv.exists_accField {cfg : Config} {m : Message} (h : m.Inv cfg) (b : Byte) :
    ∃ m', accField cfg m b = .ok m' := by
  obtain hroom | hfull := Nat.lt_or_ge m.writeCounter.toNat cfg.fieldLength
  · obtain ⟨buf, hbuf⟩ := h.exists_slot h.ranges.slotInRange
    exact ⟨_, accField_room b hroom hbuf⟩
  · exact ⟨m, accField_full b hfull⟩

/-- The field port shows something for every select of a record that meets the invariant. -/
theorem Message.Inv.exists_fieldPort {cfg : Config} {m : Message} (h : m.Inv cfg) (sel : Byte) :
    ∃ o, fieldPort cfg sel m = .ok o := by
  obtain hin | hout := Nat.lt_or_ge sel.toNat cfg.numFields
  · obtain ⟨buf, hbuf⟩ := h.exists_slot hin
    exact ⟨.field false (textLengthOut buf cfg.fieldLength) (spaceBytes buf cfg.fieldLength), by
      simp [fieldPort, rdErrFlag, hin, hbuf]⟩
  · exact ⟨.field true 0#8 (List.replicate cfg.fieldLength 0#8), by simp [fieldPort, rdErrFlag, hout]⟩

/-- A byte whose rule answers a record in every parser state leaves a record. -/
theorem exists_consume {s : State} {m : Message} (hr : s.record = some m)
    (hcode : ∃ p : ParserState, m.parserState = p.code) {rule : ParserState → Message → Except Fault Message}
    (hrule : ∀ p, ∃ m', rule p m = .ok m') :
    ∃ t m', consume s rule = .next t ∧ t.record = some m' := by
  obtain ⟨p, hp⟩ := hcode
  obtain ⟨m', hm'⟩ := hrule p
  exact ⟨s.setRecord m', m', consume_of_ok hr hp hm', State.setRecord_record s m'⟩

/-- A read whose port shows something keeps the record. -/
theorem exists_readPort (port : Message → Except Fault Observation) {s : State} {m : Message}
    (hr : s.record = some m) (hcode : ∃ p : ParserState, m.parserState = p.code) (hport : ∃ o, port m = .ok o) :
    ∃ t m', readPort s port = .next t ∧ t.record = some m' := by
  obtain ⟨p, hp⟩ := hcode
  obtain ⟨o, ho⟩ := hport
  exact ⟨s.observe o, m, (readPort_eq_next_iff _ _ _).2 ⟨p, m, o, hr, hp, ho, rfl⟩, hr⟩

/-- A rule that writes or discards on a condition answers a record either way. -/
theorem exists_ok_ite (c : Prop) [Decidable c] (m₁ m₂ : Message) :
    ∃ m', (if c then .ok m₁ else .ok m₂ : Except Fault Message) = .ok m' := by
  by_cases h : c
  · exact ⟨m₁, if_pos h⟩
  · exact ⟨m₂, if_neg h⟩

/-- Every operation has a next state with a record in every initialised state that meets the invariant. -/
theorem exists_exec_of_inv (i : Instr) (s : State) {m : Message} (hr : s.record = some m) (hinv : m.Inv s.cfg) :
    ∃ t m', exec i s = .next t ∧ t.record = some m' := by
  have hcode := hinv.exists_code
  cases i with
  | reset => exact ⟨_, _, exec_reset s, State.setRecord_record _ _⟩
  | init => exact ⟨_, _, exec_init s, State.setRecord_record _ _⟩
  | idle =>
    refine ⟨s, m, (exec_idle_eq_next_iff s s).2 ⟨rfl, fun m' hr' => ?_⟩, hr⟩
    obtain rfl := Option.some.inj (hr.symm.trans hr')
    exact hinv.ranges.legalCode
  | pbStart =>
    refine exists_consume hr hcode fun p => ?_
    cases p with
    | readingStart | done => exact ⟨_, rfl⟩
    | readingCommand | readingSource | readingDest | readingField => exact exists_ok_ite _ _ _
  | pbSep =>
    refine exists_consume hr hcode fun p => ?_
    cases p with
    | readingField => exact exists_ok_ite _ _ _
    | _ => exact ⟨_, rfl⟩
  | pbEnd =>
    refine exists_consume hr hcode fun p => ?_
    cases p with
    | readingField => exact exists_ok_ite _ _ _
    | _ => exact ⟨_, rfl⟩
  | pbDigit b | pbOther b =>
    refine exists_consume hr hcode fun p => ?_
    cases p with
    | readingField => exact hinv.exists_accField b
    | _ => exact ⟨_, rfl⟩
  | rdField sel | rdFieldOor sel => exact exists_readPort (fieldPort s.cfg sel) hr hcode (hinv.exists_fieldPort sel)
  | rdCommand => exact exists_readPort (fun m => .ok (commandPort s.cfg m)) hr hcode ⟨_, rfl⟩
  | rdSource => exact exists_readPort (fun m => .ok (.source m.source)) hr hcode ⟨_, rfl⟩
  | rdDest => exact exists_readPort (fun m => .ok (.dest m.dest)) hr hcode ⟨_, rfl⟩
  | rdStatus => exact exists_readPort (fun m => .ok (statusPort m)) hr hcode ⟨_, rfl⟩

/-- Settles O37: the decoder answers an operation to whatever is fetched, and taking the input off the stream touches
neither record nor configuration. -/
theorem initialisedMachineNeverStops : Obligations.InitialisedMachineNeverStops := by
  intro s m hinv hr
  obtain ⟨i, hi⟩ := exists_decode hinv.config s.fetch
  rw [step_of_decode hi]
  exact exists_exec_of_inv i s.advance hr (hinv.record m hr)

/-! ### The length of a frame (R78) -/

/-- The payload holds the field groups and a separator between neighbours. -/
theorem Frame.payload_length (cfg : Config) (gs : List (List Byte)) :
    (Frame.payload cfg gs).length = (gs.map List.length).sum + (gs.length - 1) := by
  induction gs with
  | nil => rfl
  | cons g rest ih =>
    cases rest with
    | nil => simp [Frame.payload]
    | cons g' rest' =>
      rw [Frame.payload, List.length_append, List.length_cons, ih]
      · simp only [List.map_cons, List.sum_cons, List.length_cons]
        omega
      · simp

/-- Besides the groups and the payload a frame has START_BYTE, three separators and END_BYTE. -/
theorem Frame.bytes_length (cfg : Config) (f : Frame) :
    (f.bytes cfg).length =
      f.command.length + f.source.length + f.dest.length + (Frame.payload cfg f.fields).length + 5 := by
  simp only [Frame.bytes, List.length_append, List.length_cons, List.length_nil]
  omega

theorem Frame.wf_iff (cfg : Config) (f : Frame) :
    f.wf cfg = true ↔ f.grammatical cfg = true ∧ f.command.length ≤ cfg.commandLength ∧
      f.fields.length = cfg.numFields ∧ ∀ g ∈ f.fields, g.length ≤ cfg.fieldLength := by
  simp only [Frame.wf, Bool.and_eq_true, decide_eq_true_eq, List.all_eq_true, and_assoc]

/-- The field groups of a well-formed frame together fit into the slots. -/
theorem Frame.sum_fields_length_le {cfg : Config} {f : Frame} (h : f.wf cfg = true) :
    (f.fields.map List.length).sum ≤ cfg.numFields * cfg.fieldLength := by
  obtain ⟨-, -, hcount, hfit⟩ := (Frame.wf_iff cfg f).1 h
  have hsum := List.sum_le_card_nsmul (f.fields.map List.length) cfg.fieldLength (by simpa using hfit)
  simpa [hcount] using hsum

/-- Settles O55: three fields have two separators between them, so 7 bytes are no group's, and the groups hold at most
8 + 3 + 3 + 3 * 32 bytes. -/
theorem frameLengthBounds : Obligations.FrameLengthBounds := by
  intro cfg f hcommand hfield hnum hwf
  obtain ⟨-, hcmd, hcount, -⟩ := (Frame.wf_iff cfg f).1 hwf
  have hsum := Frame.sum_fields_length_le hwf
  rw [Frame.bytes_length, Frame.payload_length]
  rw [hcommand] at hcmd
  rw [hnum] at hcount hsum
  rw [hfield] at hsum
  omega

end Sys2Proof.Machine

/-! PROOFS. The statements of 40_control.md: the handshake (R102, R103), INIT and IDLE (R100, R101), what runs over host
programs keep and forget (R101, R105), and `complete` after a byte (R104). -/

namespace Sys2Proof

/-! ### The consumed byte (R102, R103) -/

theorem inReady_eq_true_iff (w : ControlWord) :
    Machine.inReady w = true ↔ ctrlRst w = false ∧ ctrlInit w = false := by
  simp [Machine.inReady]

/-- A byte is consumed exactly at the word that requests only that byte. -/
theorem consumedByte_eq_some_iff (w : ControlWord) (b : Byte) :
    Machine.consumedByte w = some b ↔ w = byteWord b := by
  simp only [Machine.consumedByte, Option.ite_none_right_eq_some, Bool.and_eq_true, inReady_eq_true_iff,
    Option.some.injEq, eq_byteWord_iff]
  tauto

theorem isByteOp_decodeByte (cfg : Config) (b : Byte) : Machine.isByteOp (decodeByte cfg b) = true := by
  obtain ⟨-, h⟩ | ⟨-, h⟩ | ⟨-, h⟩ | ⟨-, -, h⟩ | ⟨-, -, h⟩ := decodeByte_cases cfg b <;> rw [h, Machine.isByteOp]

/-- A word decodes to a byte operation exactly when it is the word of a consumed byte. -/
theorem isByteOp_decodeWord_iff (cfg : Config) (w : ControlWord) :
    Machine.isByteOp (decodeWord cfg w) = true ↔ ∃ b, w = byteWord b := by
  constructor
  · intro h
    obtain hrst | ⟨hrst, hinit⟩ | ⟨hrst, hinit, hvalid⟩ | hbyte := controlWord_kinds w
    · rw [decodeWord_of_rst hrst] at h
      cases h
    · rw [decodeWord_of_init hrst hinit] at h
      cases h
    · rw [decodeWord_of_idle hrst hinit hvalid] at h
      cases h
    · exact ⟨_, hbyte⟩
  · rintro ⟨b, rfl⟩
    rw [decodeWord_byteWord]
    exact isByteOp_decodeByte cfg b

/-- While `in_ready` is 0, `rst` and `init` alone choose the operation. -/
theorem decodeWord_eq_of_not_inReady {v w : ControlWord} (h : Machine.inReady w = false)
    (hrst : ctrlRst v = ctrlRst w) (hinit : ctrlInit v = ctrlInit w) (cfg : Config) :
    decodeWord cfg v = decodeWord cfg w := by
  cases hw : ctrlRst w with
  | true => rw [decodeWord_of_rst hw, decodeWord_of_rst (hrst.trans hw)]
  | false =>
    have hi : ctrlInit w = true := by simpa [Machine.inReady, hw] using h
    rw [decodeWord_of_init hw hi, decodeWord_of_init (hrst.trans hw) (hinit.trans hi)]

/-- Settles O9: a byte is consumed at its own word only, and every other word decodes to a control operation. -/
theorem handshakeConsumesOfferedByte : Obligations.HandshakeConsumesOfferedByte := by
  intro cfg w hwf
  simp only [decode_edge hwf, Except.ok.injEq]
  refine ⟨inReady_eq_true_iff w, consumedByte_eq_some_iff w,
    fun v hready hrst hinit => decodeWord_eq_of_not_inReady hready hrst hinit cfg, ?_⟩
  simp only [consumedByte_eq_some_iff, exists_eq_left', isByteOp_decodeWord_iff]

end Sys2Proof

namespace Sys2Proof.Machine

/-! ### INIT and IDLE (R100, R101) -/

/-- A byte offered together with `init` is not consumed. -/
theorem consumedByte_eq_none_of_init {w : ControlWord} (h : ctrlInit w = true) : consumedByte w = none := by
  simp [consumedByte, inReady, h]

/-- Settles O11: INIT writes `clearRecord`, whatever the record before it. -/
theorem initClearsFromEveryState : Obligations.InitClearsFromEveryState := by
  intro s
  refine ⟨⟨clearRecord s.cfg, exec_init s, clearRecord_empty s.cfg, completeFlag_clearRecord s.cfg,
    exec_init (s.setRecord (clearRecord s.cfg))⟩, fun w hw => ?_⟩
  obtain ⟨hrst, hinit⟩ := (and_initMask_iff w).1 hw
  refine ⟨consumedByte_eq_none_of_init hinit, fun hwf => ?_⟩
  rw [decode_edge hwf, decodeWord_of_init hrst hinit]

/-- Settles O14: IDLE answers its own state wherever no illegal code stands. -/
theorem idleKeepsState : Obligations.IdleKeepsState := by
  intro s hlegal
  refine ⟨(exec_idle_eq_next_iff s s).2 ⟨rfl, hlegal⟩, fun w hw hwf => ?_⟩
  obtain ⟨hrst, hinit, hvalid⟩ := (and_requestMask_eq_zero_iff w).1 hw
  rw [decode_edge hwf, decodeWord_of_idle hrst hinit hvalid]

/-! ### The parser state after a byte (R121) -/

/-- The state graph of a consumed byte: the parser state that a byte operation answers, by the parser state and the
record it finds. -/
def parserStateAfter (cfg : Config) (m : Message) : Instr → ParserState → ParserState
  | .pbStart, .readingStart => .readingCommand
  | .pbStart, .done => .done
  | .pbStart, p => if cfg.resyncMidFrame then .readingCommand else p
  | .pbSep, .readingCommand => .readingSource
  | .pbSep, .readingSource => .readingDest
  | .pbSep, .readingDest => .readingField
  | .pbEnd, .readingField => if m.writeField.toNat = cfg.numFields - 1 then .done else .readingField
  | _, p => p

@[simp] theorem accCommand_parserState (cfg : Config) (m : Message) (b : Byte) :
    (accCommand cfg m b).parserState = m.parserState := by
  unfold accCommand
  split <;> rfl

theorem accField_parserState {cfg : Config} {m m' : Message} {b : Byte} (h : accField cfg m b = .ok m') :
    m'.parserState = m.parserState := by
  obtain ⟨-, buf, -, rfl⟩ | ⟨-, rfl⟩ := accField_eq_ok h
  · simp
  · rfl

/-- A byte moves the parser state as its rule does. -/
theorem consume_parserState {s t : State} {rule : ParserState → Message → Except Fault Message}
    {after : Message → ParserState → ParserState}
    (hrule : ∀ p m m', m.parserState = p.code → rule p m = .ok m' → m'.parserState = (after m p).code)
    (h : consume s rule = .next t) :
    ∃ (p : ParserState) (m m' : Message), s.record = some m ∧ m.parserState = p.code ∧ t = s.setRecord m' ∧
      m'.parserState = (after m p).code := by
  obtain ⟨p, m, m', hr, hp, hm, ht⟩ := (consume_eq_next_iff s t rule).1 h
  exact ⟨p, m, m', hr, hp, ht, hrule p m m' hp hm⟩

/-- A byte operation with a next state found a record, wrote a record, and moved the parser state along the graph. -/
theorem exec_byteOp_parserState {i : Instr} {s t : State} (hi : isByteOp i = true) (h : exec i s = .next t) :
    ∃ (p : ParserState) (m m' : Message), s.record = some m ∧ m.parserState = p.code ∧ t = s.setRecord m' ∧
      m'.parserState = (parserStateAfter s.cfg m i p).code := by
  cases i with
  | pbStart =>
    refine consume_parserState (after := fun m => parserStateAfter s.cfg m _) (fun p m m' hp hm => ?_) h
    cases p with
    | readingStart | done =>
      obtain rfl := Except.ok.inj hm
      simp [parserStateAfter, hp]
    | readingCommand | readingSource | readingDest | readingField =>
      dsimp only at hm
      split at hm <;> obtain rfl := Except.ok.inj hm <;> simp [parserStateAfter, ParserState.code, *]
  | pbSep =>
    refine consume_parserState (after := fun m => parserStateAfter s.cfg m _) (fun p m m' hp hm => ?_) h
    cases p with
    | readingField =>
      dsimp only at hm
      split at hm <;> obtain rfl := Except.ok.inj hm <;> simp [parserStateAfter, hp]
    | _ =>
      obtain rfl := Except.ok.inj hm
      simp [parserStateAfter, hp]
  | pbEnd =>
    refine consume_parserState (after := fun m => parserStateAfter s.cfg m _) (fun p m m' hp hm => ?_) h
    cases p with
    | readingField =>
      dsimp only at hm
      split at hm <;> obtain rfl := Except.ok.inj hm <;> simp [parserStateAfter, *]
    | _ =>
      obtain rfl := Except.ok.inj hm
      simp [parserStateAfter, hp]
  | pbDigit b | pbOther b =>
    refine consume_parserState (after := fun m => parserStateAfter s.cfg m _) (fun p m m' hp hm => ?_) h
    cases p with
    | readingField => simpa [parserStateAfter, hp] using accField_parserState hm
    | _ =>
      obtain rfl := Except.ok.inj hm
      simp [parserStateAfter, hp]
  | _ => cases hi

/-- DONE is entered by END_BYTE in the last slot alone, and left by no byte (R127, R130). -/
theorem parserStateAfter_eq_done_iff (cfg : Config) (m : Message) (i : Instr) (p : ParserState) :
    parserStateAfter cfg m i p = .done ↔
      p = .done ∨ (i = .pbEnd ∧ p = .readingField ∧ m.writeField.toNat = cfg.numFields - 1) := by
  cases i with
  | pbStart =>
    cases p with
    | readingStart | done => simp [parserStateAfter]
    | readingCommand | readingSource | readingDest | readingField =>
      cases hresync : cfg.resyncMidFrame <;> simp [parserStateAfter, hresync]
  | pbSep | pbEnd => cases p <;> simp [parserStateAfter]
  | _ => simp [parserStateAfter]

/-! ### `complete` after a byte (R104) -/

theorem completeFlag_eq_true_iff (m : Message) : completeFlag m = true ↔ m.parserState = 5#3 := beq_iff_eq

theorem ParserState.code_eq_iff (p q : ParserState) : p.code = q.code ↔ p = q :=
  ⟨ParserState.code_injective, congrArg _⟩

/-- Settles O23: `complete` shows DONE, which the state graph enters at one byte and never leaves. -/
theorem completeIsReturnValue : Obligations.CompleteIsReturnValue := by
  intro i s t m m' hi hr h hr'
  refine ⟨completeFlag_eq_true_iff m', ?_⟩
  obtain ⟨p, n, n', hn, hp, rfl, hafter⟩ := exec_byteOp_parserState hi h
  obtain rfl := Option.some.inj (hr.symm.trans hn)
  obtain rfl := Option.some.inj hr'
  rw [completeFlag_eq_true_iff, hafter, hp]
  change _ = ParserState.done.code ↔ p.code = ParserState.done.code ∨ (_ ∧ p.code = ParserState.readingField.code ∧ _)
  simp only [ParserState.code_eq_iff, parserStateAfter_eq_done_iff]

/-! ### Runs over a host program (R61, R79) -/

/-- Go on from a next state; a stop stays a stop. -/
def andThen (o : Host.Outcome State Fault Refusal) (k : State → Host.Outcome State Fault Refusal) :
    Host.Outcome State Fault Refusal :=
  match o with
  | .next s => k s
  | .fault r => .fault r
  | .refused r => .refused r

@[simp] theorem andThen_next (s : State) (k : State → Host.Outcome State Fault Refusal) :
    andThen (.next s) k = k s := rfl

theorem andThen_assoc (o : Host.Outcome State Fault Refusal) (k l : State → Host.Outcome State Fault Refusal) :
    andThen (andThen o k) l = andThen o fun s => andThen (k s) l := by
  cases o <;> rfl

theorem andThen_eq_next_iff {o : Host.Outcome State Fault Refusal} {k : State → Host.Outcome State Fault Refusal}
    {t : State} : andThen o k = .next t ↔ ∃ s, o = .next s ∧ k s = .next t := by
  cases o <;> simp [andThen]

/-- Two continuations that agree on the next states there are. -/
theorem andThen_congr {o : Host.Outcome State Fault Refusal} {k l : State → Host.Outcome State Fault Refusal}
    (h : ∀ s, o = .next s → k s = l s) : andThen o k = andThen o l := by
  cases o with
  | next s => exact h s rfl
  | fault r | refused r => rfl

theorem core_run_succ (n : Nat) (s : State) : core.run (n + 1) s = andThen (step s) (core.run n) := by
  cases h : step s <;> simp [Host.Core.run, core, andThen, h]

/-- No operation looks at what the host will present after it, and each leaves it in place. -/
theorem exec_setPending (i : Instr) (s : State) (xs : List Stimulus) :
    exec i (s.setPending xs) = andThen (exec i s) fun t => .next (t.setPending xs) := by
  have hcur : (s.setPending xs).current = s.current := rfl
  obtain rfl | rfl | rfl | hi | hi := instr_kinds i
  · rfl
  · rfl
  · change execIdle _ = andThen (execIdle s) _
    unfold execIdle
    rw [hcur]
    split <;> rfl
  · obtain ⟨rule, hxs, hs⟩ := exec_eq_consume_of_cfg_eq hi (State.setPending_cfg s xs)
    rw [hxs, hs, consume, consume, hcur]
    repeat' split
    all_goals rfl
  · obtain ⟨port, hxs, hs⟩ := exec_eq_readPort_of_cfg_eq hi (State.setPending_cfg s xs)
    rw [hxs, hs, readPort, readPort, hcur]
    repeat' split
    all_goals rfl

theorem runProgram_nil (s : State) : runProgram [] s = .next (s.setPending []) := rfl

/-- A run performs the operation presented first, and then the rest of the host program. -/
theorem runProgram_cons {s : State} {x : Stimulus} {i : Instr} (h : decode s.cfg x = .ok i) (xs : List Stimulus) :
    runProgram (x :: xs) s = andThen (exec i s) (runProgram xs) := by
  have hstep : step (s.setPending (x :: xs)) = exec i (s.setPending xs) := step_of_decode h
  calc runProgram (x :: xs) s
      = andThen (step (s.setPending (x :: xs))) (core.run xs.length) := core_run_succ _ _
    _ = andThen (andThen (exec i s) fun t => .next (t.setPending xs)) (core.run xs.length) := by
      rw [hstep, exec_setPending]
    _ = andThen (exec i s) (runProgram xs) := andThen_assoc _ _ _

/-- No operation changes the configuration (R30). -/
theorem exec_cfg {i : Instr} {s t : State} (h : exec i s = .next t) : t.cfg = s.cfg :=
  (configurationNeverChanges i s t h).1

/-- No host program changes the configuration. -/
theorem runProgram_cfg {xs : List Stimulus} {s t : State} (hwf : s.cfg.wf = true) (h : runProgram xs s = .next t) :
    t.cfg = s.cfg := by
  induction xs generalizing s with
  | nil => exact (congrArg State.cfg (Host.Outcome.next.inj h)).symm
  | cons x xs ih =>
    obtain ⟨i, hi⟩ := exists_decode hwf x
    rw [runProgram_cons hi, andThen_eq_next_iff] at h
    obtain ⟨u, hu, hrest⟩ := h
    have hcfg : u.cfg = s.cfg := exec_cfg hu
    exact (ih (hcfg ▸ hwf) hrest).trans hcfg

/-- Two host programs in a row. -/
theorem runProgram_append {s : State} (hwf : s.cfg.wf = true) (xs ys : List Stimulus) :
    runProgram (xs ++ ys) s = andThen (runProgram xs s) (runProgram ys) := by
  induction xs generalizing s with
  | nil => rfl
  | cons x xs ih =>
    obtain ⟨i, hi⟩ := exists_decode hwf x
    rw [List.cons_append, runProgram_cons hi, runProgram_cons hi, andThen_assoc]
    exact andThen_congr fun t ht => ih (exec_cfg ht ▸ hwf)

/-! ### What INIT forgets (R105) -/

theorem decode_stmtInit {cfg : Config} (h : cfg.wf = true) : decode cfg stmtInit = .ok .init := decode_edge h _

/-- A run that ends with INIT leaves the empty message. -/
theorem record_of_runProgram_init {s t : State} {xs : List Stimulus} (hwf : s.cfg.wf = true)
    (h : runProgram (xs ++ [stmtInit]) s = .next t) : t.record = some (clearRecord s.cfg) := by
  rw [runProgram_append hwf, andThen_eq_next_iff] at h
  obtain ⟨u, hu, hlast⟩ := h
  have hcfg : u.cfg = s.cfg := runProgram_cfg hwf hu
  rw [runProgram_cons (decode_stmtInit (hcfg ▸ hwf)), exec_init, andThen_next, runProgram_nil] at hlast
  rw [← Host.Outcome.next.inj hlast, State.setPending_record, State.setRecord_record, hcfg]

/-- Settles O16: the record that INIT writes depends on the configuration alone. -/
theorem initForgetsHistory : Obligations.InitForgetsHistory := by
  intro s₁ s₂ t₁ t₂ xs ys hcfg hwf h₁ h₂
  have hr₁ := record_of_runProgram_init hwf h₁
  have hr₂ := record_of_runProgram_init (hcfg ▸ hwf) h₂
  rw [← hcfg] at hr₂
  exact ⟨hr₁.trans hr₂.symm, clearRecord s₁.cfg, hr₁, clearRecord_empty s₁.cfg⟩

/-! ### IDLE edges in a run (R101) -/

/-- A record, where there is one, holds a legal code: all that IDLE asks of a state (R22). -/
def State.LegalCode (s : State) : Prop := ∀ m, s.record = some m → m.parserState.toNat ≤ 5

theorem State.Inv.legalCode {s : State} (h : s.Inv) : s.LegalCode := fun m hr => (h.record m hr).ranges.legalCode

theorem exec_idle_of_legalCode {s : State} (h : s.LegalCode) : exec .idle s = .next s :=
  (exec_idle_eq_next_iff s s).2 ⟨rfl, h⟩

theorem ParserState.code_le (p : ParserState) : p.code.toNat ≤ 5 := by
  cases p <;> decide

theorem State.legalCode_setRecord (s : State) {m : Message} (h : m.parserState.toNat ≤ 5) :
    (s.setRecord m).LegalCode := by
  rintro _ ⟨⟩
  exact h

/-- No operation writes an illegal code. -/
theorem exec_keeps_legalCode {i : Instr} {s t : State} (h : exec i s = .next t) (hs : s.LegalCode) :
    t.LegalCode := by
  obtain rfl | rfl | rfl | hi | hi := instr_kinds i
  · obtain rfl := Host.Outcome.next.inj h
    exact s.legalCode_setRecord (Nat.zero_le _)
  · obtain rfl := Host.Outcome.next.inj h
    exact s.legalCode_setRecord (Nat.zero_le _)
  · rwa [eq_of_exec_idle h]
  · obtain ⟨p, m, m', -, -, rfl, hafter⟩ := exec_byteOp_parserState hi h
    exact s.legalCode_setRecord (hafter ▸ ParserState.code_le _)
  · obtain ⟨o, rfl⟩ := readsChangeOnlyTheView i s t hi h
    exact hs

theorem decode_of_isIdleEdge {cfg : Config} (hwf : cfg.wf = true) {x : Stimulus} (h : isIdleEdge x = true) :
    decode cfg x = .ok .idle := by
  cases x with
  | edge w =>
    obtain ⟨⟨hrst, hinit⟩, hvalid⟩ : (ctrlRst w = false ∧ ctrlInit w = false) ∧ ctrlValid w = false := by
      simpa [isIdleEdge, ctrlRst, ctrlInit, ctrlValid] using h
    rw [decode_edge hwf, decodeWord_of_idle hrst hinit hvalid]
  | read sel | port p => cases h

/-- IDLE edges can be taken out of a host program wherever the code is legal. -/
theorem runProgram_filter_idle {s : State} (hwf : s.cfg.wf = true) (hs : s.LegalCode) (xs : List Stimulus) :
    runProgram xs s = runProgram (xs.filter fun x => !isIdleEdge x) s := by
  induction xs generalizing s with
  | nil => rfl
  | cons x xs ih =>
    cases hx : isIdleEdge x with
    | true =>
      rw [runProgram_cons (decode_of_isIdleEdge hwf hx), exec_idle_of_legalCode hs, andThen_next,
        List.filter_cons_of_neg (by simp [hx])]
      exact ih hwf hs
    | false =>
      obtain ⟨i, hi⟩ := exists_decode hwf x
      rw [List.filter_cons_of_pos (by simp [hx]), runProgram_cons hi, runProgram_cons hi]
      exact andThen_congr fun t ht => ih (exec_cfg ht ▸ hwf) (exec_keeps_legalCode ht hs)

/-- Settles O15: an IDLE edge answers its own state, because a reached state holds a legal code and keeps one. -/
theorem idleEdgesAreInvisible : Obligations.IdleEdgesAreInvisible := fun _ xs hinv =>
  runProgram_filter_idle hinv.config hinv.legalCode xs

end Sys2Proof.Machine

/-! PROOFS. The statements of 41_parse_byte.md: the byte operations in each parser state (R120 to R131), what every step
keeps (R121, R132, R139), and what byte strings and whole frames leave (R124, R134 to R138, R140). -/

namespace Sys2Proof.Machine

/-! ### The summary table of the byte operations (R120) -/

/-- The states in the middle of a frame, those that a resynchronisation cuts off (R131). -/
def ParserState.isMidFrame : ParserState → Bool
  | .readingStart | .done => false
  | .readingCommand | .readingSource | .readingDest | .readingField => true

/-- The content byte that an operation carries (R128, R129). -/
def contentByte : Instr → Option Byte
  | .pbDigit b | .pbOther b => some b
  | _ => none

/-- The entries "disc." of the table: where a byte operation changes nothing. -/
def Discards (cfg : Config) (m : Message) : Instr → ParserState → Prop
  | .pbStart, p => p = .done ∨ (p.isMidFrame = true ∧ cfg.resyncMidFrame = false)
  | .pbSep, p => p = .readingStart ∨ p = .done
  | .pbEnd, p => p = .readingField → m.writeField.toNat ≠ cfg.numFields - 1
  | .pbDigit _, .readingCommand | .pbOther _, .readingCommand => cfg.commandLength ≤ m.writeCounter.toNat
  | .pbDigit _, .readingField | .pbOther _, .readingField => cfg.fieldLength ≤ m.writeCounter.toNat
  | .pbDigit _, p => p = .readingStart ∨ p = .done
  | .pbOther _, _ => True
  | _, _ => False

/-- The summary table: in parser state `p`, byte operation `i` makes the record `m` into the last argument. -/
inductive ByteStep (cfg : Config) (m : Message) : Instr → ParserState → Message → Prop
  | start : ByteStep cfg m .pbStart .readingStart ((m.goto .readingCommand).setCounter 0#8)
  | resync {p : ParserState} (hp : p.isMidFrame = true) (hr : cfg.resyncMidFrame = true) :
      ByteStep cfg m .pbStart p (restart cfg)
  | sepCommand : ByteStep cfg m .pbSep .readingCommand ((m.goto .readingSource).setCounter 0#8)
  | sepSource : ByteStep cfg m .pbSep .readingSource (m.goto .readingDest)
  | sepDest : ByteStep cfg m .pbSep .readingDest (((m.goto .readingField).setCounter 0#8).setSlot 0#8)
  | sepNextSlot (h : m.writeField.toNat < cfg.numFields - 1) :
      ByteStep cfg m .pbSep .readingField ((m.setSlot (m.writeField + 1#8)).setCounter 0#8)
  | sepOverflow (h : cfg.numFields - 1 ≤ m.writeField.toNat) :
      ByteStep cfg m .pbSep .readingField (m.setCounter (BitVec.ofNat 8 cfg.fieldLength))
  | endLastSlot (h : m.writeField.toNat = cfg.numFields - 1) : ByteStep cfg m .pbEnd .readingField (m.goto .done)
  | storeCommand {i : Instr} {b : Byte} (hb : contentByte i = some b) (h : m.writeCounter.toNat < cfg.commandLength) :
      ByteStep cfg m i .readingCommand
        ((m.setCommand (Memory.write m.command m.writeCounter.toNat b)).setCounter (m.writeCounter + 1#8))
  | storeField {i : Instr} {b : Byte} {buf : Memory} (hb : contentByte i = some b)
      (h : m.writeCounter.toNat < cfg.fieldLength) (hbuf : m.fields[m.writeField.toNat]? = some buf) :
      ByteStep cfg m i .readingField
        ((m.setField m.writeField.toNat (Memory.write buf m.writeCounter.toNat b)).setCounter (m.writeCounter + 1#8))
  | digitSource (b : Byte) : ByteStep cfg m (.pbDigit b) .readingSource (m.setSource (accAddr m.source b))
  | digitDest (b : Byte) : ByteStep cfg m (.pbDigit b) .readingDest (m.setDest (accAddr m.dest b))
  | discard {i : Instr} {p : ParserState} (h : Discards cfg m i p) : ByteStep cfg m i p m

/-- ACC_CMD as an entry of the table. -/
theorem byteStep_accCommand {i : Instr} {b : Byte} (hb : contentByte i = some b) (cfg : Config) (m : Message) :
    ByteStep cfg m i .readingCommand (accCommand cfg m b) := by
  obtain h | h := Nat.lt_or_ge m.writeCounter.toNat cfg.commandLength
  · rw [accCommand_room b h]
    exact .storeCommand hb h
  · rw [accCommand_full b h]
    cases i with
    | pbDigit | pbOther => exact .discard h
    | _ => cases hb

/-- ACC_FIELD as an entry of the table. -/
theorem byteStep_accField {i : Instr} {b : Byte} (hb : contentByte i = some b) {cfg : Config} {m m' : Message}
    (h : accField cfg m b = .ok m') : ByteStep cfg m i .readingField m' := by
  obtain ⟨hroom, buf, hbuf, rfl⟩ | ⟨hfull, rfl⟩ := accField_eq_ok h
  · exact .storeField hb hroom hbuf
  · cases i with
    | pbDigit | pbOther => exact .discard hfull
    | _ => cases hb

/-- A byte whose rule follows the table makes a step of the table. -/
theorem byteStep_of_consume {s t : State} {i : Instr} {rule : ParserState → Message → Except Fault Message}
    (hrule : ∀ p m m', rule p m = .ok m' → ByteStep s.cfg m i p m') (h : consume s rule = .next t) :
    ∃ (p : ParserState) (m m' : Message), s.record = some m ∧ m.parserState = p.code ∧ ByteStep s.cfg m i p m' ∧
      t = s.setRecord m' := by
  obtain ⟨p, m, m', hr, hp, hm, ht⟩ := (consume_eq_next_iff s t rule).1 h
  exact ⟨p, m, m', hr, hp, hrule p m m' hm, ht⟩

/-- All that a byte operation can do is in the table. -/
theorem byteStep_of_exec {i : Instr} {s t : State} (hi : isByteOp i = true) (h : exec i s = .next t) :
    ∃ (p : ParserState) (m m' : Message), s.record = some m ∧ m.parserState = p.code ∧ ByteStep s.cfg m i p m' ∧
      t = s.setRecord m' := by
  cases i with
  | pbStart =>
    refine byteStep_of_consume (fun p m m' hm => ?_) h
    cases p with
    | readingStart => obtain rfl := Except.ok.inj hm; exact .start
    | done => obtain rfl := Except.ok.inj hm; exact .discard (.inl rfl)
    | readingCommand | readingSource | readingDest | readingField =>
      dsimp only at hm
      split at hm
      · obtain rfl := Except.ok.inj hm; exact .resync rfl ‹_›
      · obtain rfl := Except.ok.inj hm; exact .discard (.inr ⟨rfl, Bool.eq_false_iff.2 ‹_›⟩)
  | pbSep =>
    refine byteStep_of_consume (fun p m m' hm => ?_) h
    cases p with
    | readingStart => obtain rfl := Except.ok.inj hm; exact .discard (.inl rfl)
    | readingCommand => obtain rfl := Except.ok.inj hm; exact .sepCommand
    | readingSource => obtain rfl := Except.ok.inj hm; exact .sepSource
    | readingDest => obtain rfl := Except.ok.inj hm; exact .sepDest
    | readingField =>
      dsimp only at hm
      split at hm
      · obtain rfl := Except.ok.inj hm; exact .sepNextSlot ‹_›
      · obtain rfl := Except.ok.inj hm; exact .sepOverflow (Nat.not_lt.1 ‹_›)
    | done => obtain rfl := Except.ok.inj hm; exact .discard (.inr rfl)
  | pbEnd =>
    refine byteStep_of_consume (fun p m m' hm => ?_) h
    cases p with
    | readingField =>
      dsimp only at hm
      split at hm
      · obtain rfl := Except.ok.inj hm; exact .endLastSlot ‹_›
      · obtain rfl := Except.ok.inj hm; exact .discard fun _ => ‹_›
    | _ => obtain rfl := Except.ok.inj hm; exact .discard nofun
  | pbDigit b =>
    refine byteStep_of_consume (fun p m m' hm => ?_) h
    cases p with
    | readingStart => obtain rfl := Except.ok.inj hm; exact .discard (.inl rfl)
    | readingCommand => obtain rfl := Except.ok.inj hm; exact byteStep_accCommand rfl _ _
    | readingSource => obtain rfl := Except.ok.inj hm; exact .digitSource b
    | readingDest => obtain rfl := Except.ok.inj hm; exact .digitDest b
    | readingField => exact byteStep_accField rfl hm
    | done => obtain rfl := Except.ok.inj hm; exact .discard (.inr rfl)
  | pbOther b =>
    refine byteStep_of_consume (fun p m m' hm => ?_) h
    cases p with
    | readingCommand => obtain rfl := Except.ok.inj hm; exact byteStep_accCommand rfl _ _
    | readingField => exact byteStep_accField rfl hm
    | _ => obtain rfl := Except.ok.inj hm; exact .discard trivial
  | _ => cases hi

/-- Where the table says discard, the byte operation answers the state it was given. -/
theorem exec_of_discards {i : Instr} {s : State} {m : Message} {p : ParserState} (hi : isByteOp i = true)
    (hr : s.record = some m) (hp : m.parserState = p.code) (h : Discards s.cfg m i p) : exec i s = .next s := by
  cases i with
  | pbStart =>
    refine consume_of_discard hr hp ?_
    obtain rfl | ⟨hmid, hno⟩ := h
    · rfl
    · cases p with
      | readingStart | done => cases hmid
      | _ => exact if_neg (Bool.eq_false_iff.1 hno)
  | pbSep => obtain rfl | rfl := h <;> exact consume_of_discard hr hp rfl
  | pbEnd =>
    refine consume_of_discard hr hp ?_
    cases p with
    | readingField => exact if_neg (h rfl)
    | _ => rfl
  | pbDigit b =>
    refine consume_of_discard hr hp ?_
    cases p with
    | readingCommand => exact congrArg Except.ok (accCommand_full b h)
    | readingField => exact accField_full b h
    | readingSource | readingDest => exact absurd h (by simp [Discards])
    | _ => rfl
  | pbOther b =>
    refine consume_of_discard hr hp ?_
    cases p with
    | readingCommand => exact congrArg Except.ok (accCommand_full b h)
    | readingField => exact accField_full b h
    | _ => rfl
  | _ => cases hi

/-- A byte operation makes every step of the table. -/
theorem exec_of_byteStep {i : Instr} {s : State} {m m' : Message} {p : ParserState} (hi : isByteOp i = true)
    (hr : s.record = some m) (hp : m.parserState = p.code) (h : ByteStep s.cfg m i p m') :
    exec i s = .next (s.setRecord m') := by
  cases h with
  | start | sepCommand | sepSource | sepDest | digitSource | digitDest => exact consume_of_ok hr hp rfl
  | resync hmid hyes =>
    refine consume_of_ok hr hp ?_
    cases p with
    | readingStart | done => cases hmid
    | _ => exact if_pos hyes
  | sepNextSlot h => exact consume_of_ok hr hp (if_pos h)
  | sepOverflow h => exact consume_of_ok hr hp (if_neg (Nat.not_lt.2 h))
  | endLastSlot h => exact consume_of_ok hr hp (if_pos h)
  | storeCommand hb h =>
    cases i with
    | pbDigit | pbOther => cases hb; exact consume_of_ok hr hp (congrArg Except.ok (accCommand_room _ h))
    | _ => cases hb
  | storeField hb h hbuf =>
    cases i with
    | pbDigit | pbOther => cases hb; exact consume_of_ok hr hp (accField_room _ h hbuf)
    | _ => cases hb
  | discard h => rw [State.setRecord_self s m hr, exec_of_discards hi hr hp h]

/-! ### Each byte operation by parser state (R125 to R131) -/

/-- No byte operation but PB_END changes `complete`. -/
theorem completeFlag_of_ne_pbEnd {i : Instr} {s t : State} {m m' : Message} (hi : isByteOp i = true) (hne : i ≠ .pbEnd)
    (hr : s.record = some m) (h : exec i s = .next t) (hr' : t.record = some m') :
    completeFlag m' = completeFlag m := by
  have hiff := (completeIsReturnValue i s t m m' hi hr h hr').2
  rw [Bool.eq_iff_iff, hiff, completeFlag_eq_true_iff]
  simp [hne]

/-- `BYTE b` presents the operation of `b`'s class (R71). -/
theorem decode_stmtByte {cfg : Config} (h : cfg.wf = true) (b : Byte) :
    decode cfg (stmtByte b) = .ok (decodeByte cfg b) := by
  rw [stmtByte, decode_edge h, decodeWord_byteWord]

theorem isMidFrame_of_code {c : BitVec 3} (h : 1 ≤ c.toNat ∧ c.toNat ≤ 4) :
    ∃ p : ParserState, c = p.code ∧ p.isMidFrame = true := by
  obtain rfl | rfl | rfl | rfl : c = 1#3 ∨ c = 2#3 ∨ c = 3#3 ∨ c = 4#3 := by bv_omega
  · exact ⟨.readingCommand, rfl, rfl⟩
  · exact ⟨.readingSource, rfl, rfl⟩
  · exact ⟨.readingDest, rfl, rfl⟩
  · exact ⟨.readingField, rfl, rfl⟩

theorem byte_succ_eq_ofNat (c : Byte) : c + 1#8 = BitVec.ofNat 8 (c.toNat + 1) := by
  apply BitVec.eq_of_toNat_eq
  simp

/-- The value that a digit leaves in an address (R124). -/
theorem accAddr_eq_mod (r b : Byte) : accAddr r b = BitVec.ofNat 8 ((r.toNat * 10 + (b.toNat - 0x30)) % 256) := by
  apply BitVec.eq_of_toNat_eq
  simp [accAddr, digitValue]

theorem isDigit_eq_true_iff (b : Byte) : isDigit b = true ↔ 0x30 ≤ b.toNat ∧ b.toNat ≤ 0x39 := decide_eq_true_iff

theorem Memory.write_storesOnly {buf : Memory} {b : Byte} (h : Memory.wf buf = true ∨ b ≠ 0#8) (i : Nat) :
    Memory.StoresOnly buf (Memory.write buf i b) i b := by
  refine ⟨?_, fun a ha => Memory.read_write_of_ne buf b ha⟩
  obtain h | h := h
  · exact Memory.read_write_same h i b
  · exact Memory.read_write_of_ne_blank buf i h

/-- A content byte with room in the command is stored at the cursor (R122). -/
theorem exec_content_storeCommand {i : Instr} {b : Byte} {s : State} {m : Message} (hi : isByteOp i = true)
    (hb : contentByte i = some b) (hr : s.record = some m) (hp : m.parserState = 1#3)
    (hroom : m.writeCounter.toNat < s.cfg.commandLength) (hkeep : Memory.wf m.command = true ∨ b ≠ 0#8) :
    ∃ buf, exec i s = .next { s with
        record := some { m with command := buf, writeCounter := BitVec.ofNat 8 (m.writeCounter.toNat + 1) } } ∧
      Memory.StoresOnly m.command buf m.writeCounter.toNat b := by
  refine ⟨_, ?_, Memory.write_storesOnly hkeep _⟩
  rw [← byte_succ_eq_ofNat]
  exact exec_of_byteStep hi hr (p := .readingCommand) hp (.storeCommand hb hroom)

/-- A content byte with room in the current slot is stored at the cursor (R123). -/
theorem exec_content_storeField {i : Instr} {b : Byte} {s : State} {m : Message} {old : Memory}
    (hi : isByteOp i = true) (hb : contentByte i = some b) (hr : s.record = some m) (hp : m.parserState = 4#3)
    (hroom : m.writeCounter.toNat < s.cfg.fieldLength) (hold : m.fields[m.writeField.toNat]? = some old)
    (hkeep : Memory.wf old = true ∨ b ≠ 0#8) :
    ∃ buf, exec i s = .next { s with
        record := some { m with
          fields := m.fields.set m.writeField.toNat buf
          writeCounter := BitVec.ofNat 8 (m.writeCounter.toNat + 1) } } ∧
      Memory.StoresOnly old buf m.writeCounter.toNat b := by
  refine ⟨_, ?_, Memory.write_storesOnly hkeep _⟩
  rw [← byte_succ_eq_ofNat]
  exact exec_of_byteStep hi hr (p := .readingField) hp (.storeField hb hroom hold)

/-- Settles O20: each clause is an entry of the table, and a digit is not 0x00. -/
theorem pbDigitActsByState : Obligations.PbDigitActsByState := by
  intro s m b hr hdigit
  have hne : b ≠ 0#8 := by bv_omega
  have hdiscard {p : ParserState} (hp : m.parserState = p.code) (h : Discards s.cfg m (.pbDigit b) p) :
      exec (.pbDigit b) s = .next s := exec_of_discards rfl hr hp h
  refine ⟨fun hp => hdiscard (p := .readingStart) hp (.inl rfl),
    fun hp hroom => exec_content_storeCommand rfl rfl hr hp hroom (.inr hne),
    fun hp hfull => hdiscard (p := .readingCommand) hp hfull,
    fun hp => ?_, fun hp => ?_,
    fun hp hroom old hold => exec_content_storeField rfl rfl hr hp hroom hold (.inr hne),
    fun hp hfull => hdiscard (p := .readingField) hp hfull,
    fun hp => hdiscard (p := .done) hp (.inr rfl),
    fun t m' h hr' => completeFlag_of_ne_pbEnd (i := .pbDigit b) rfl nofun hr h hr', fun hwf => ?_⟩
  · rw [← accAddr_eq_mod]
    exact exec_of_byteStep rfl hr (p := .readingSource) hp (.digitSource b)
  · rw [← accAddr_eq_mod]
    exact exec_of_byteStep rfl hr (p := .readingDest) hp (.digitDest b)
  · have hd := (isDigit_eq_true_iff b).2 hdigit
    exact (decode_stmtByte hwf b).trans (congrArg Except.ok (decodeByte_digit (cls_digit hwf hd) hd))

/-- Settles O21: each clause is an entry of the table, and in canonical spaces a stored 0x00 is read back. -/
theorem pbOtherActsByState : Obligations.PbOtherActsByState := by
  intro s m b hr hcommand hfields hb
  have hdiscard {p : ParserState} (hp : m.parserState = p.code) (h : Discards s.cfg m (.pbOther b) p) :
      exec (.pbOther b) s = .next s := exec_of_discards rfl hr hp h
  refine ⟨fun hp => hdiscard (p := .readingStart) hp trivial,
    fun hp hroom => exec_content_storeCommand rfl rfl hr hp hroom (.inl hcommand),
    fun hp hfull => hdiscard (p := .readingCommand) hp hfull, ?_,
    fun hp hroom old hold =>
      exec_content_storeField rfl rfl hr hp hroom hold (.inl (hfields old (List.mem_of_getElem? hold))),
    fun hp hfull => hdiscard (p := .readingField) hp hfull,
    fun hp => hdiscard (p := .done) hp trivial,
    fun t m' h hr' => completeFlag_of_ne_pbEnd (i := .pbOther b) rfl nofun hr h hr', fun hwf => ?_⟩
  · rintro (hp | hp)
    · exact hdiscard (p := .readingSource) hp trivial
    · exact hdiscard (p := .readingDest) hp trivial
  · obtain ⟨hcontent, hother⟩ : cls s.cfg b = .content ∧ isDigit b = false := by simpa [Instr.wf] using hb
    exact (decode_stmtByte hwf b).trans (congrArg Except.ok (decodeByte_other hcontent hother))

/-- Settles O17, by the entries of the table. -/
theorem pbStartActsByState : Obligations.PbStartActsByState := by
  intro s m hr
  refine ⟨fun hp => exec_of_byteStep rfl hr (p := .readingStart) hp .start, fun hmid hno => ?_, fun hmid hyes => ?_,
    fun hp => exec_of_discards rfl hr (p := .done) hp (.inl rfl),
    fun t m' h hr' => completeFlag_of_ne_pbEnd (i := .pbStart) rfl nofun hr h hr', fun hwf => ?_⟩
  · obtain ⟨p, hp, hpmid⟩ := isMidFrame_of_code hmid
    exact exec_of_discards rfl hr hp (.inr ⟨hpmid, hno⟩)
  · obtain ⟨p, hp, hpmid⟩ := isMidFrame_of_code hmid
    exact exec_of_byteStep rfl hr hp (.resync hpmid hyes)
  · exact (decode_stmtByte hwf _).trans (congrArg Except.ok (decodeByte_startByte s.cfg))

/-- Settles O18, by the entries of the table. -/
theorem pbSepActsByState : Obligations.PbSepActsByState := by
  intro s m hr
  refine ⟨fun hp => exec_of_discards rfl hr (p := .readingStart) hp (.inl rfl),
    fun hp => exec_of_byteStep rfl hr (p := .readingCommand) hp .sepCommand,
    fun hp => exec_of_byteStep rfl hr (p := .readingSource) hp .sepSource,
    fun hp => exec_of_byteStep rfl hr (p := .readingDest) hp .sepDest, fun hp hslot => ?_,
    fun hp hlast => exec_of_byteStep rfl hr (p := .readingField) hp (.sepOverflow hlast),
    fun hp => exec_of_discards rfl hr (p := .done) hp (.inr rfl),
    fun t m' h hr' => completeFlag_of_ne_pbEnd (i := .pbSep) rfl nofun hr h hr', fun hwf => ?_⟩
  · rw [← byte_succ_eq_ofNat]
    exact exec_of_byteStep rfl hr (p := .readingField) hp (.sepNextSlot hslot)
  · exact (decode_stmtByte hwf _).trans (congrArg Except.ok (decodeByte_sepByte hwf))

/-- Settles O19, by the entries of the table. -/
theorem pbEndActsByState : Obligations.PbEndActsByState := by
  intro s m hr
  refine ⟨fun hle => ?_, fun hp hlast => ⟨?_, rfl⟩,
    fun hp hslot => exec_of_discards rfl hr (p := .readingField) hp fun _ => hslot,
    fun hp => exec_of_discards rfl hr (p := .done) hp nofun,
    fun hwf => (decode_stmtByte hwf _).trans (congrArg Except.ok (decodeByte_endByte hwf))⟩
  · obtain hp | hmid : m.parserState = 0#3 ∨ 1 ≤ m.parserState.toNat ∧ m.parserState.toNat ≤ 4 := by bv_omega
    · exact exec_of_discards rfl hr (p := .readingStart) hp nofun
    · obtain ⟨p, hp, -⟩ := isMidFrame_of_code hmid
      refine exec_of_discards rfl hr hp fun hfield => ?_
      rw [hp, hfield] at hle
      exact absurd hle (by decide)
  · exact exec_of_byteStep rfl hr (p := .readingField) hp (.endLastSlot hlast)

/-- PB_START in a blank record leaves the record of RESTART (R131). -/
theorem exec_pbStart_of_clearRecord {s : State} (hr : s.record = some (clearRecord s.cfg)) :
    exec .pbStart s = .next (s.setRecord (restart s.cfg)) :=
  exec_of_byteStep rfl hr (p := .readingStart) rfl .start

/-- PB_START in the middle of a frame performs RESTART (R131). -/
theorem exec_pbStart_of_midFrame {s : State} {m : Message} (hr : s.record = some m)
    (hresync : s.cfg.resyncMidFrame = true) (hmid : 1 ≤ m.parserState.toNat ∧ m.parserState.toNat ≤ 4) :
    exec .pbStart s = .next (s.setRecord (restart s.cfg)) := by
  obtain ⟨p, hp, hpmid⟩ := isMidFrame_of_code hmid
  exact exec_of_byteStep rfl hr hp (.resync hpmid hresync)

/-- Settles O22: both ways lead to the record of RESTART. -/
theorem restartIsInitThenStart : Obligations.RestartIsInitThenStart := by
  intro s m hr hresync hmid
  have hstart := exec_pbStart_of_midFrame hr hresync hmid
  have hinit : exec .pbStart (s.setRecord (clearRecord s.cfg)) = .next (s.setRecord (restart s.cfg)) :=
    exec_pbStart_of_clearRecord rfl
  exact ⟨_, restart s.cfg, exec_init s, hstart.trans hinit.symm, hstart, rfl, clearRecord_empty s.cfg⟩

/-- Settles O24: with room, both operations look for the slot; the invariant bounds the slot by their number. -/
theorem missingSlotFaults : Obligations.MissingSlotFaults := by
  intro s m hr
  refine ⟨fun hp hroom hmissing b => ?_, fun hinv => ?_⟩
  · have hcur : s.current = .ok (.readingField, m) := State.current_of_record hr hp
    have hacc : accField s.cfg m b = .error .noSuchSlot := by
      simp [accField, hroom, List.getElem?_eq_none hmissing]
    constructor
    · change consume s _ = _
      simp [consume, hcur, hacc]
    · change consume s _ = _
      simp [consume, hcur, hacc]
  · have hm := hinv.record m hr
    rw [hm.shape.slots]
    exact hm.ranges.slotInRange

/-! ### The invariant, state by state (R27, R28, R139) -/

/-- What the invariant of reachable records says beyond their shape, for each parser state. -/
def Message.CursorInv (cfg : Config) (m : Message) : ParserState → Prop
  | .readingStart => m = Message.fresh cfg
  | .readingCommand =>
    m.writeCounter.toNat ≤ cfg.commandLength ∧ Memory.below m.command m.writeCounter.toNat = true ∧
      m.writeField = 0#8 ∧ m.source = 0#8 ∧ m.dest = 0#8 ∧ ∀ buf ∈ m.fields, buf = []
  | .readingSource => m.writeCounter = 0#8 ∧ m.writeField = 0#8 ∧ m.dest = 0#8 ∧ ∀ buf ∈ m.fields, buf = []
  | .readingDest => m.writeCounter = 0#8 ∧ m.writeField = 0#8 ∧ ∀ buf ∈ m.fields, buf = []
  | .readingField =>
    m.writeCounter.toNat ≤ cfg.fieldLength ∧ m.writeField.toNat < cfg.numFields ∧
      (∀ buf, m.fields[m.writeField.toNat]? = some buf → Memory.below buf m.writeCounter.toNat = true) ∧
      ∀ j buf, m.writeField.toNat < j → m.fields[j]? = some buf → buf = []
  | .done => m.writeCounter.toNat ≤ cfg.fieldLength ∧ m.writeField.toNat = cfg.numFields - 1

theorem Message.Inv.cursorInv {cfg : Config} {m : Message} (h : m.Inv cfg) {p : ParserState}
    (hp : m.parserState = p.code) : m.CursorInv cfg p := by
  obtain ⟨-, hrange, hblank⟩ := h
  cases p with
  | readingStart => exact hblank.inStart hp
  | readingCommand =>
    exact ⟨hrange.counterInCommand hp, hblank.commandAhead hp, hrange.slotBeforeField (by simp [hp, ParserState.code]),
      hblank.sourceAhead (by simp [hp, ParserState.code]), hblank.destAhead (by simp [hp, ParserState.code]),
      hblank.fieldsAhead (by simp [hp, ParserState.code])⟩
  | readingSource =>
    exact ⟨hrange.counterInSource hp, hrange.slotBeforeField (by simp [hp, ParserState.code]),
      hblank.destAhead (by simp [hp, ParserState.code]), hblank.fieldsAhead (by simp [hp, ParserState.code])⟩
  | readingDest =>
    exact ⟨hrange.counterInDest hp, hrange.slotBeforeField (by simp [hp, ParserState.code]),
      hblank.fieldsAhead (by simp [hp, ParserState.code])⟩
  | readingField =>
    exact ⟨hrange.counterInField hp, hrange.slotInRange, hblank.slotAhead hp, hblank.slotsAhead hp⟩
  | done => exact ⟨hrange.counterInDone hp, hrange.slotInDone hp⟩

/-- The ranges of R27 and R28 follow from what the invariant says in each parser state. -/
theorem Message.CursorInv.ranges {cfg : Config} (hwf : cfg.wf = true) {m : Message} {p : ParserState}
    (h : m.CursorInv cfg p) (hp : m.parserState = p.code) : m.Ranges cfg := by
  obtain ⟨⟨-, -, -, -, hnum, -⟩, -, -⟩ := (Config.wf_iff cfg).1 hwf
  have hzero : 0 < cfg.numFields := hnum
  cases p with
  | readingStart =>
    obtain rfl : m = Message.fresh cfg := h
    constructor <;> simp [Message.fresh, ParserState.code, hzero]
  | readingCommand =>
    obtain ⟨hcount, -, hslot, -⟩ := h
    constructor <;> simp [hp, ParserState.code, hcount, hslot, hzero]
  | readingSource =>
    obtain ⟨hcount, hslot, -⟩ := h
    constructor <;> simp [hp, ParserState.code, hcount, hslot, hzero]
  | readingDest =>
    obtain ⟨hcount, hslot, -⟩ := h
    constructor <;> simp [hp, ParserState.code, hcount, hslot, hzero]
  | readingField =>
    obtain ⟨hcount, hslot, -⟩ := h
    constructor <;> simp [hp, ParserState.code, hcount, hslot]
  | done =>
    obtain ⟨hcount, hslot⟩ := h
    constructor <;> simp [hp, ParserState.code, hcount, hslot, hzero]

/-- So does what is still blank ahead of the cursor. -/
theorem Message.CursorInv.blankAhead {cfg : Config} {m : Message} {p : ParserState} (h : m.CursorInv cfg p)
    (hp : m.parserState = p.code) : m.BlankAhead cfg := by
  cases p with
  | readingStart =>
    obtain rfl : m = Message.fresh cfg := h
    constructor <;> simp [Message.fresh, ParserState.code]
  | readingCommand =>
    obtain ⟨-, hbelow, -, hsource, hdest, hfields⟩ := h
    constructor <;> simp [hp, ParserState.code, hbelow, hsource, hdest]
    exact hfields
  | readingSource =>
    obtain ⟨-, -, hdest, hfields⟩ := h
    constructor <;> simp [hp, ParserState.code, hdest]
    exact hfields
  | readingDest =>
    obtain ⟨-, -, hfields⟩ := h
    constructor <;> simp [hp, ParserState.code]
    exact hfields
  | readingField =>
    obtain ⟨-, -, hslot, hslots⟩ := h
    constructor <;> simp [hp, ParserState.code]
    · exact hslot
    · exact hslots
  | done => constructor <;> simp [hp, ParserState.code]

theorem Message.Inv.of_cursorInv {cfg : Config} (hwf : cfg.wf = true) {m : Message} (hshape : m.Shape cfg)
    {p : ParserState} (hp : m.parserState = p.code) (h : m.CursorInv cfg p) : m.Inv cfg :=
  ⟨hshape, h.ranges hwf hp, h.blankAhead hp⟩

theorem clearRecord_shape (cfg : Config) : (clearRecord cfg).Shape cfg where
  commandCanonical := rfl
  commandInside := rfl
  slots := by simp
  fieldsCanonical := fun _ hbuf => by rw [List.eq_of_mem_replicate hbuf, Memory.wf_nil]
  fieldsInside := fun _ hbuf => by rw [List.eq_of_mem_replicate hbuf, Memory.below_nil]

/-- The record of RESET and INIT meets the invariant (R34). -/
theorem clearRecord_inv {cfg : Config} (hwf : cfg.wf = true) : (clearRecord cfg).Inv cfg :=
  .of_cursorInv hwf (p := .readingStart) (clearRecord_shape cfg) rfl rfl

/-! ### What every step keeps (R132, R139) -/

/-- The shape speaks of the byte spaces alone. -/
theorem Message.Shape.congr {cfg : Config} {m m' : Message} (h : m.Shape cfg) (hcommand : m'.command = m.command)
    (hfields : m'.fields = m.fields) : m'.Shape cfg := by
  obtain ⟨h₁, h₂, h₃, h₄, h₅⟩ := h
  constructor <;> simpa only [hcommand, hfields]

theorem ByteStep.keeps_shape {cfg : Config} {m m' : Message} {i : Instr} {p : ParserState}
    (h : ByteStep cfg m i p m') (hs : m.Shape cfg) : m'.Shape cfg := by
  cases h with
  | start | sepCommand | sepSource | sepDest | sepNextSlot | sepOverflow | endLastSlot | digitSource | digitDest =>
    exact hs.congr rfl rfl
  | resync => exact (clearRecord_shape cfg).congr rfl rfl
  | discard => exact hs
  | storeCommand hb hroom =>
    exact
      { hs with
        commandCanonical := Memory.write_wf hs.commandCanonical _ _
        commandInside := Memory.write_below hs.commandInside hroom _ }
  | storeField hb hroom hbuf =>
    have hmem := List.mem_of_getElem? hbuf
    have hset {P : Memory → Prop} (hall : ∀ buf ∈ m.fields, P buf) {new : Memory} (hnew : P new) :
        ∀ buf ∈ m.fields.set m.writeField.toNat new, P buf := fun buf h =>
      (List.mem_or_eq_of_mem_set h).elim (hall buf) fun heq => heq ▸ hnew
    exact
      { hs with
        slots := (List.length_set ..).trans hs.slots
        fieldsCanonical := hset hs.fieldsCanonical (Memory.write_wf (hs.fieldsCanonical _ hmem) _ _)
        fieldsInside := hset hs.fieldsInside (Memory.write_below (hs.fieldsInside _ hmem) hroom _) }

/-- A write at the cursor leaves what is ahead of the next cursor blank. -/
theorem Memory.write_below_succ {buf : Memory} {c : Byte} {cap : Nat} (h : Memory.below buf c.toNat = true)
    (hroom : c.toNat < cap) (hcap : cap ≤ 255) (b : Byte) :
    Memory.below (Memory.write buf c.toNat b) (c + 1#8).toNat = true := by
  rw [counter_succ hroom hcap]
  exact Memory.write_below (Memory.below_mono h (Nat.le_succ _)) (Nat.lt_succ_self _) b

theorem ByteStep.keeps_cursorInv {cfg : Config} (hwf : cfg.wf = true) {m m' : Message} {i : Instr} {p : ParserState}
    (h : ByteStep cfg m i p m') (hp : m.parserState = p.code) (hs : m.Shape cfg) (hc : m.CursorInv cfg p) :
    ∃ q : ParserState, m'.parserState = q.code ∧ m'.CursorInv cfg q := by
  obtain ⟨⟨-, hcmd, -, hfield, hnum, hnum'⟩, -, -⟩ := (Config.wf_iff cfg).1 hwf
  cases h with
  | start =>
    obtain rfl : m = Message.fresh cfg := hc
    exact ⟨.readingCommand, rfl, Nat.zero_le _, rfl, rfl, rfl, rfl, fun _ => List.eq_of_mem_replicate⟩
  | resync => exact ⟨.readingCommand, rfl, Nat.zero_le _, rfl, rfl, rfl, rfl, fun _ => List.eq_of_mem_replicate⟩
  | sepCommand =>
    obtain ⟨-, -, hslot, -, hdest, hfields⟩ := hc
    exact ⟨.readingSource, rfl, rfl, hslot, hdest, hfields⟩
  | sepSource =>
    obtain ⟨hcount, hslot, -, hfields⟩ := hc
    exact ⟨.readingDest, rfl, hcount, hslot, hfields⟩
  | sepDest =>
    obtain ⟨-, -, hfields⟩ := hc
    refine ⟨.readingField, rfl, Nat.zero_le _, hnum, fun buf hbuf => ?_, fun _ buf _ hbuf => ?_⟩
    · rw [hfields buf (List.mem_of_getElem? hbuf), Memory.below_nil]
    · exact hfields buf (List.mem_of_getElem? hbuf)
  | sepNextSlot hlt =>
    obtain ⟨-, hslot, -, hahead⟩ := hc
    have hnext : (m.writeField + 1#8).toNat = m.writeField.toNat + 1 :=
      counter_succ (cap := cfg.numFields - 1) hlt (by omega)
    refine ⟨.readingField, hp, Nat.zero_le _, ?_, fun buf hbuf => ?_, fun j buf hj hbuf => ?_⟩
    · simp only [Message.setCounter_writeField, Message.setSlot_writeField, hnext]
      omega
    · rw [hahead _ buf (by simp [hnext]) hbuf, Memory.below_nil]
    · simp only [Message.setCounter_writeField, Message.setSlot_writeField, hnext] at hj
      exact hahead j buf (by omega) hbuf
  | sepOverflow =>
    obtain ⟨-, hslot, -, hahead⟩ := hc
    have hfull : (BitVec.ofNat 8 cfg.fieldLength).toNat = cfg.fieldLength := by simp; omega
    refine ⟨.readingField, hp, hfull.le, hslot, fun buf hbuf => ?_, hahead⟩
    rw [Message.setCounter_writeCounter, hfull]
    exact hs.fieldsInside buf (List.mem_of_getElem? hbuf)
  | endLastSlot hlast => exact ⟨.done, rfl, hc.1, hlast⟩
  | storeCommand hb hroom =>
    obtain ⟨-, hbelow, hslot, hsource, hdest, hfields⟩ := hc
    exact ⟨.readingCommand, hp, (counter_succ hroom hcmd).trans_le hroom,
      Memory.write_below_succ hbelow hroom hcmd _, hslot, hsource, hdest, hfields⟩
  | storeField hb hroom hold =>
    obtain ⟨-, hslot, hbelow, hahead⟩ := hc
    refine ⟨.readingField, hp, (counter_succ hroom hfield).trans_le hroom, hslot, fun buf hbuf => ?_,
      fun j buf hj hbuf => ?_⟩
    · obtain ⟨hlt, -⟩ := List.getElem?_eq_some_iff.1 hold
      obtain rfl : _ = buf := by simpa [hlt] using hbuf
      exact Memory.write_below_succ (hbelow _ hold) hroom hfield _
    · have hne : m.writeField.toNat ≠ j := Nat.ne_of_lt hj
      rw [Message.setCounter_fields, Message.setField_fields, List.getElem?_set_ne hne] at hbuf
      exact hahead j buf hj hbuf
  | digitSource => exact ⟨.readingSource, hp, hc⟩
  | digitDest => exact ⟨.readingDest, hp, hc⟩
  | discard => exact ⟨p, hp, hc⟩

/-- Every byte operation keeps the invariant of reachable records. -/
theorem ByteStep.keeps_inv {cfg : Config} (hwf : cfg.wf = true) {m m' : Message} {i : Instr} {p : ParserState}
    (h : ByteStep cfg m i p m') (hp : m.parserState = p.code) (hm : m.Inv cfg) : m'.Inv cfg := by
  obtain ⟨q, hq, hc⟩ := h.keeps_cursorInv hwf hp hm.shape (hm.cursorInv hp)
  exact .of_cursorInv hwf (h.keeps_shape hm.shape) hq hc

/-- A property of records holds after an operation when it holds of the cleared record and every entry of the table
keeps it. -/
theorem exec_keeps_record {P : Message → Prop} {i : Instr} {s t : State} (h : exec i s = .next t)
    (hclear : P (clearRecord s.cfg))
    (hbyte : ∀ p m m', isByteOp i = true → m.parserState = p.code → ByteStep s.cfg m i p m' → P m → P m')
    (hs : ∀ m, s.record = some m → P m) : ∀ m, t.record = some m → P m := by
  obtain rfl | rfl | rfl | hi | hi := instr_kinds i
  · obtain rfl := Host.Outcome.next.inj h
    rintro _ ⟨⟩
    exact hclear
  · obtain rfl := Host.Outcome.next.inj h
    rintro _ ⟨⟩
    exact hclear
  · rwa [eq_of_exec_idle h]
  · obtain ⟨p, m, m', hr, hp, hstep, rfl⟩ := byteStep_of_exec hi h
    rintro _ ⟨⟩
    exact hbyte p m m' hi hp hstep (hs m hr)
  · obtain ⟨o, rfl⟩ := readsChangeOnlyTheView i s t hi h
    exact hs

theorem exec_keeps_inv {i : Instr} {s t : State} (h : exec i s = .next t) (hs : s.Inv) : t.Inv := by
  have hcfg : t.cfg = s.cfg := exec_cfg h
  refine ⟨hcfg ▸ hs.config, ?_⟩
  rw [hcfg]
  exact exec_keeps_record h (clearRecord_inv hs.config)
    (fun _ _ _ _ hp hstep hm => hstep.keeps_inv hs.config hp hm) hs.record

/-- A step with a next state runs a decoded operation on the state with that input taken off. -/
theorem exists_exec_of_step {s t : State} (hwf : s.cfg.wf = true) (h : step s = .next t) :
    ∃ i, decode s.cfg s.fetch = .ok i ∧ exec i s.advance = .next t := by
  obtain ⟨i, hi⟩ := exists_decode hwf s.fetch
  exact ⟨i, hi, (step_of_decode hi).symm.trans h⟩

/-- Settles O38: the cleared record meets the invariant and every entry of the table keeps it. -/
theorem everyStepKeepsInvariant : Obligations.EveryStepKeepsInvariant := by
  intro s t hs h
  obtain ⟨i, -, hi⟩ := exists_exec_of_step hs.config h
  exact exec_keeps_inv hi ⟨hs.config, hs.record⟩

theorem clearRecord_markerFree (cfg : Config) : (clearRecord cfg).MarkerFree cfg where
  command := nofun
  fields := fun buf hbuf c hc => by
    rw [List.eq_of_mem_replicate hbuf] at hc
    cases hc

/-- A decoded operation carries a content byte, if any (R71, R73). -/
theorem cls_contentByte {cfg : Config} {i : Instr} {b : Byte} (hi : i.wf cfg = true) (hb : contentByte i = some b) :
    cls cfg b = .content := by
  cases i with
  | pbDigit c | pbOther c =>
    obtain rfl := Option.some.inj hb
    simp only [Instr.wf, Bool.and_eq_true, beq_iff_eq] at hi
    exact hi.1
  | _ => cases hb

/-- A write of a content byte lists no marker. -/
theorem Memory.write_content {cfg : Config} {buf : Memory} (h : ∀ c ∈ buf, cls cfg c.2 = .content) {b : Byte}
    (hb : cls cfg b = .content) (i : Nat) : ∀ c ∈ Memory.write buf i b, cls cfg c.2 = .content := by
  intro c hc
  obtain ⟨rfl, -⟩ | hc := Memory.mem_write hc
  · exact hb
  · exact h c hc

/-- Only content bytes are stored. -/
theorem ByteStep.keeps_markerFree {cfg : Config} {m m' : Message} {i : Instr} {p : ParserState} (hi : i.wf cfg = true)
    (h : ByteStep cfg m i p m') (hm : m.MarkerFree cfg) : m'.MarkerFree cfg := by
  cases h with
  | start | sepCommand | sepSource | sepDest | sepNextSlot | sepOverflow | endLastSlot | digitSource | digitDest |
    discard => exact ⟨hm.command, hm.fields⟩
  | resync => exact ⟨(clearRecord_markerFree cfg).command, (clearRecord_markerFree cfg).fields⟩
  | storeCommand hb => exact ⟨Memory.write_content hm.command (cls_contentByte hi hb) _, hm.fields⟩
  | storeField hb hroom hold =>
    refine ⟨hm.command, fun buf hbuf => ?_⟩
    obtain hbuf | rfl := List.mem_or_eq_of_mem_set hbuf
    · exact hm.fields buf hbuf
    · exact Memory.write_content (hm.fields _ (List.mem_of_getElem? hold)) (cls_contentByte hi hb) _

/-- Settles O41: the decoder gives no operation a marker for content, and only content is stored. -/
theorem everyStepKeepsMarkersOut : Obligations.EveryStepKeepsMarkersOut := by
  intro s t hwf hs h
  obtain ⟨i, hdecode, hi⟩ := exists_exec_of_step hwf h
  have hiwf : i.wf s.cfg = true := (encodeGivesBackDecodedBits _ _ _ hdecode).1
  have hcfg : t.cfg = s.advance.cfg := exec_cfg hi
  rw [State.MarkerFree, hcfg]
  exact exec_keeps_record hi (clearRecord_markerFree s.cfg)
    (fun _ _ _ _ _ hstep hm => hstep.keeps_markerFree hiwf hm) hs

/-- Settles O39: State.reset holds the cleared record, and a power-up state none. -/
theorem resetAndPowerUpMeetInvariant : Obligations.ResetAndPowerUpMeetInvariant := by
  have hwf : Config.reference.wf = true := by decide
  refine ⟨⟨hwf, ?_⟩, fun cfg hcfg => ⟨hcfg, nofun⟩⟩
  rintro _ ⟨⟩
  exact clearRecord_inv hwf

/-- Settles O42: State.reset holds the cleared record, and a power-up state none. -/
theorem resetAndPowerUpHoldNoMarker : Obligations.ResetAndPowerUpHoldNoMarker := by
  refine ⟨?_, fun cfg => nofun⟩
  rintro _ ⟨⟩
  exact clearRecord_markerFree Config.reference

/-! ### The transition graph (R121) -/

/-- The edges of the graph, apart from those of RESET and INIT. -/
theorem parserStateAfter_edge (cfg : Config) (m : Message) (i : Instr) (p : ParserState) :
    parserStateAfter cfg m i p = p ∨
      (p.code.toNat ≤ 4 ∧ (parserStateAfter cfg m i p).code.toNat = p.code.toNat + 1) ∨
      (i = .pbStart ∧ cfg.resyncMidFrame = true ∧ p.isMidFrame = true ∧
        parserStateAfter cfg m i p = .readingCommand) := by
  cases i with
  | pbStart =>
    cases p with
    | readingStart => exact .inr (.inl ⟨by decide, rfl⟩)
    | done => exact .inl rfl
    | readingCommand | readingSource | readingDest | readingField =>
      cases hresync : cfg.resyncMidFrame with
      | true => exact .inr (.inr ⟨rfl, rfl, rfl, if_pos hresync⟩)
      | false => exact .inl (if_neg (Bool.eq_false_iff.1 hresync))
  | pbSep =>
    cases p with
    | readingStart | readingField | done => exact .inl rfl
    | readingCommand | readingSource | readingDest => exact .inr (.inl ⟨by decide, rfl⟩)
  | pbEnd =>
    cases p with
    | readingField =>
      by_cases hlast : m.writeField.toNat = cfg.numFields - 1
      · have hdone : parserStateAfter cfg m .pbEnd .readingField = .done := if_pos hlast
        rw [hdone]
        exact .inr (.inl ⟨by decide, rfl⟩)
      · exact .inl (if_neg hlast)
    | _ => exact .inl rfl
  | _ => exact .inl rfl

theorem ParserState.code_of_isMidFrame {p : ParserState} (h : p.isMidFrame = true) :
    1 ≤ p.code.toNat ∧ p.code.toNat ≤ 4 := by
  cases p with
  | readingStart | done => cases h
  | _ => decide

/-- Settles O44: clearing leads to READING_START, a byte operation along an edge of the graph, and no other operation
writes the record. -/
theorem parserStateFollowsGraph : Obligations.ParserStateFollowsGraph := by
  intro i s t m m' hr h hr'
  constructor
  · rintro (rfl | rfl)
    · obtain rfl := Host.Outcome.next.inj h
      obtain rfl := Option.some.inj hr'
      rfl
    · obtain rfl := Host.Outcome.next.inj h
      obtain rfl := Option.some.inj hr'
      rfl
  · intro hreset hinit
    obtain rfl | rfl | rfl | hi | hi := instr_kinds i
    · exact absurd rfl hreset
    · exact absurd rfl hinit
    · obtain rfl := eq_of_exec_idle h
      exact .inl (congrArg _ (Option.some.inj (hr'.symm.trans hr)))
    · obtain ⟨p, n, n', hn, hp, rfl, hafter⟩ := exec_byteOp_parserState hi h
      obtain rfl := Option.some.inj (hr.symm.trans hn)
      obtain rfl := Option.some.inj hr'
      rw [hafter, hp]
      obtain hsame | hnext | ⟨hstart, hresync, hmid, hcommand⟩ := parserStateAfter_edge s.cfg m i p
      · exact .inl (congrArg _ hsame)
      · exact .inr (.inl ⟨hi, hnext⟩)
      · obtain ⟨hge, hle⟩ := ParserState.code_of_isMidFrame hmid
        exact .inr (.inr ⟨hstart, hresync, hge, hle, congrArg _ hcommand⟩)
    · obtain ⟨o, rfl⟩ := readsChangeOnlyTheView i s t hi h
      exact .inl (congrArg _ (Option.some.inj (hr'.symm.trans hr)))

/-! ### Runs from a reached state (R139) -/

/-- In an initialised state that meets the invariant every operation leads to another such state. -/
theorem exists_exec_inv (i : Instr) {s : State} {m : Message} (hs : s.Inv) (hr : s.record = some m) :
    ∃ t m', exec i s = .next t ∧ t.record = some m' ∧ t.Inv := by
  obtain ⟨t, m', h, hr'⟩ := exists_exec_of_inv i s hr (hs.record m hr)
  exact ⟨t, m', h, hr', exec_keeps_inv h hs⟩

/-- So does every host program. -/
theorem exists_runProgram_inv (xs : List Stimulus) {s : State} {m : Message} (hs : s.Inv) (hr : s.record = some m) :
    ∃ t m', runProgram xs s = .next t ∧ t.record = some m' ∧ t.Inv := by
  induction xs generalizing s m with
  | nil => exact ⟨_, m, runProgram_nil s, hr, hs.config, hs.record⟩
  | cons x xs ih =>
    obtain ⟨i, hi⟩ := exists_decode hs.config x
    obtain ⟨u, n, hu, hn, huinv⟩ := exists_exec_inv i hs hr
    rw [runProgram_cons hi, hu, andThen_next]
    exact ih huinv hn

/-- The state after RESET or INIT meets the invariant, whatever the state before. -/
theorem setRecord_clearRecord_inv {s : State} (hwf : s.cfg.wf = true) : (s.setRecord (clearRecord s.cfg)).Inv := by
  refine ⟨hwf, ?_⟩
  rintro _ ⟨⟩
  exact clearRecord_inv hwf

theorem decode_stmtReset {cfg : Config} (h : cfg.wf = true) : decode cfg stmtReset = .ok .reset := decode_edge h _

/-- A host program that begins with RESET or INIT goes on from the cleared record. -/
theorem runProgram_clear {s : State} (hwf : s.cfg.wf = true) {x : Stimulus} (hx : x = stmtReset ∨ x = stmtInit)
    (xs : List Stimulus) : runProgram (x :: xs) s = runProgram xs (s.setRecord (clearRecord s.cfg)) := by
  obtain rfl | rfl := hx
  · rw [runProgram_cons (decode_stmtReset hwf), exec_reset, andThen_next]
  · rw [runProgram_cons (decode_stmtInit hwf), exec_init, andThen_next]

/-- Settles O40: after the first input the invariant holds, and every later one keeps it. -/
theorem reachableRecordsKeepRanges : Obligations.ReachableRecordsKeepRanges := by
  intro s t x xs hwf hx h
  rw [runProgram_clear hwf hx] at h
  obtain ⟨u, m, hu, hr, hinv⟩ := exists_runProgram_inv xs (setRecord_clearRecord_inv hwf) (State.setRecord_record _ _)
  obtain rfl := Host.Outcome.next.inj (hu.symm.trans h)
  have hranges := (hinv.record m hr).ranges
  exact ⟨m, hr, hranges, hranges.legalCode⟩

/-! ### DONE is terminal (R130) -/

/-- In DONE the table has nothing but discards. -/
theorem ByteStep.eq_of_done {cfg : Config} {m m' : Message} {i : Instr} (h : ByteStep cfg m i .done m') : m' = m := by
  cases h with
  | resync hmid => cases hmid
  | discard => rfl

/-- In DONE no operation but RESET and INIT changes the record. -/
theorem exec_record_of_done {i : Instr} {s t : State} {m : Message} (hreset : i ≠ .reset) (hinit : i ≠ .init)
    (hr : s.record = some m) (hdone : m.parserState = 5#3) (h : exec i s = .next t) : t.record = some m := by
  obtain rfl | rfl | rfl | hi | hi := instr_kinds i
  · exact absurd rfl hreset
  · exact absurd rfl hinit
  · rwa [eq_of_exec_idle h]
  · obtain ⟨p, n, n', hn, hp, hstep, rfl⟩ := byteStep_of_exec hi h
    obtain rfl := Option.some.inj (hr.symm.trans hn)
    obtain rfl : p = .done := ParserState.code_injective (hp.symm.trans hdone)
    rw [State.setRecord_record, hstep.eq_of_done]
  · obtain ⟨o, rfl⟩ := readsChangeOnlyTheView i s t hi h
    exact hr

/-- What clears no record decodes to neither RESET nor INIT (R71). -/
theorem ne_clear_of_decode {cfg : Config} {x : Stimulus} {i : Instr} (hx : isClearEdge x = false)
    (h : decode cfg x = .ok i) : i ≠ .reset ∧ i ≠ .init := by
  have hwf := wf_of_decode h
  cases x with
  | edge w =>
    obtain ⟨hrst, hinit⟩ : ctrlRst w = false ∧ ctrlInit w = false := by
      simpa [isClearEdge, ctrlRst, ctrlInit] using hx
    obtain rfl := Except.ok.inj ((decode_edge hwf w).symm.trans h)
    cases hvalid : ctrlValid w with
    | false => simp [decodeWord_of_idle hrst hinit hvalid]
    | true =>
      have hbyte : isByteOp (decodeWord cfg w) = true :=
        (isByteOp_decodeWord_iff cfg w).2 ⟨_, (eq_byteWord_iff w _).2 ⟨hrst, hinit, hvalid, rfl⟩⟩
      constructor <;> intro heq <;> simp [heq, isByteOp] at hbyte
  | read sel =>
    obtain rfl := Except.ok.inj ((decode_read hwf sel).symm.trans h)
    unfold decodeSelect
    split <;> simp
  | port p =>
    obtain rfl := Except.ok.inj ((decode_port hwf p).symm.trans h)
    cases p <;> simp [decodePort]

/-- Settles O45: every input without a clear edge keeps both the record and the invariant. -/
theorem doneIsTerminal : Obligations.DoneIsTerminal := by
  intro s m xs hs hr hdone hxs
  induction xs generalizing s with
  | nil => exact ⟨_, runProgram_nil s, hr, (completeFlag_eq_true_iff m).2 hdone⟩
  | cons x xs ih =>
    obtain ⟨i, hi⟩ := exists_decode hs.config x
    obtain ⟨hreset, hinit⟩ := ne_clear_of_decode (hxs x List.mem_cons_self) hi
    obtain ⟨t, -, ht, -, htinv⟩ := exists_exec_inv i hs hr
    rw [runProgram_cons hi, ht, andThen_next]
    exact ih t htinv (exec_record_of_done hreset hinit hr hdone ht) fun y hy => hxs y (List.mem_cons_of_mem x hy)

/-! ### Separators still needed (R138) -/

/-- The separators that a frame in this state needs before END_BYTE can complete it: those to READING_FIELD and those to
the last slot. -/
def Message.separatorsNeeded (cfg : Config) (m : Message) : Nat :=
  (4 - max 1 m.parserState.toNat) + (cfg.numFields - 1 - m.writeField.toNat)

/-- No byte operation but PB_SEP brings a frame nearer to its completion, and PB_SEP by one separator at most. -/
theorem ByteStep.separatorsNeeded_le {cfg : Config} {m m' : Message} {i : Instr} {p : ParserState}
    (h : ByteStep cfg m i p m') (hp : m.parserState = p.code) :
    m.separatorsNeeded cfg ≤ m'.separatorsNeeded cfg + (if i = .pbSep then 1 else 0) := by
  cases h with
  | start | sepOverflow => simp [Message.separatorsNeeded, hp, ParserState.code]
  | endLastSlot hlast => simp [Message.separatorsNeeded, hp, ParserState.code, hlast]
  | resync | sepCommand | sepSource | sepDest | sepNextSlot =>
    simp [Message.separatorsNeeded, hp, ParserState.code]
    omega
  | storeCommand | storeField | digitSource | digitDest | discard => exact Nat.le_add_right _ _

theorem decodeByte_eq_pbSep_iff {cfg : Config} (hwf : cfg.wf = true) (b : Byte) :
    decodeByte cfg b = .pbSep ↔ b = cfg.sepByte := by
  constructor
  · intro h
    obtain ⟨-, hi⟩ | ⟨hb, -⟩ | ⟨-, hi⟩ | ⟨-, -, hi⟩ | ⟨-, -, hi⟩ := decodeByte_cases cfg b
    case inr.inl => exact hb
    all_goals cases hi.symm.trans h
  · rintro rfl
    exact decodeByte_sepByte hwf

theorem runProgram_stmtText_cons {s : State} (hwf : s.cfg.wf = true) (b : Byte) (bs : List Byte) :
    runProgram (stmtText (b :: bs)) s = andThen (exec (decodeByte s.cfg b) s) (runProgram (stmtText bs)) :=
  runProgram_cons (decode_stmtByte hwf b) _

/-- A byte string brings a frame nearer to its completion by its separators at most. -/
theorem runProgram_separatorsNeeded_le (bs : List Byte) {s : State} {m : Message} (hs : s.Inv)
    (hr : s.record = some m) :
    ∃ t m', runProgram (stmtText bs) s = .next t ∧ t.record = some m' ∧ m'.Inv s.cfg ∧
      m.separatorsNeeded s.cfg ≤ m'.separatorsNeeded s.cfg + bs.count s.cfg.sepByte := by
  induction bs generalizing s m with
  | nil => exact ⟨_, m, runProgram_nil s, hr, hs.record m hr, Nat.le_add_right _ _⟩
  | cons b bs ih =>
    obtain ⟨u, n, hu, hn, huinv⟩ := exists_exec_inv (decodeByte s.cfg b) hs hr
    have hcfg : u.cfg = s.cfg := exec_cfg hu
    obtain ⟨t, m', ht, hr', hinv', hle'⟩ := ih huinv hn
    rw [hcfg] at hinv' hle'
    rw [runProgram_stmtText_cons hs.config, hu, andThen_next]
    refine ⟨t, m', ht, hr', hinv', ?_⟩
    obtain ⟨p, m₀, n', hm₀, hp, hstep, rfl⟩ := byteStep_of_exec (isByteOp_decodeByte _ _) hu
    obtain rfl := Option.some.inj (hr.symm.trans hm₀)
    obtain rfl := Option.some.inj hn
    have hle := hstep.separatorsNeeded_le hp
    simp only [decodeByte_eq_pbSep_iff hs.config] at hle
    simp only [List.count_cons, beq_iff_eq]
    omega

/-- A completed frame needs no separator. -/
theorem Message.Inv.separatorsNeeded_of_done {cfg : Config} {m : Message} (h : m.Inv cfg)
    (hdone : m.parserState = 5#3) : m.separatorsNeeded cfg = 0 := by
  have hslot := h.ranges.slotInDone hdone
  simp [Message.separatorsNeeded, hdone, hslot]

/-- Settles O51: more separators are needed than come, so some are still needed at the end. -/
theorem tooFewSeparatorsNeverComplete : Obligations.TooFewSeparatorsNeverComplete := by
  intro s m bs hs hr _ hcount
  obtain ⟨t, m', ht, hr', hinv, hle⟩ := runProgram_separatorsNeeded_le bs hs hr
  refine ⟨t, m', ht, hr', Bool.eq_false_iff.2 fun hcomplete => ?_⟩
  rw [hinv.separatorsNeeded_of_done ((completeFlag_eq_true_iff m').1 hcomplete)] at hle
  exact absurd hcount (by unfold Message.separatorsNeeded at hle; omega)

/-! ### Byte strings (R120) -/

/-- From the record `m`, the byte string `bs` leads to the record `m'` and changes nothing else of the machine. -/
def Takes (cfg : Config) (m : Message) (bs : List Byte) (m' : Message) : Prop :=
  ∀ s : State, s.cfg = cfg → s.record = some m →
    runProgram (stmtText bs) s = .next { s with pending := [], record := some m' }

theorem Takes.nil (cfg : Config) (m : Message) : Takes cfg m [] m := by
  intro s _ hr
  rw [← hr]
  exact runProgram_nil s

theorem Takes.append {cfg : Config} (hwf : cfg.wf = true) {m n k : Message} {bs cs : List Byte}
    (h₁ : Takes cfg m bs n) (h₂ : Takes cfg n cs k) : Takes cfg m (bs ++ cs) k := by
  rintro s rfl hr
  rw [stmtText, List.map_append, runProgram_append hwf]
  exact (congrArg (andThen · _) (h₁ s rfl hr)).trans (h₂ _ rfl rfl)

/-- One byte makes a step of the table. -/
theorem Takes.single {cfg : Config} (hwf : cfg.wf = true) {m m' : Message} {b : Byte} {p : ParserState}
    (hp : m.parserState = p.code) (h : ByteStep cfg m (decodeByte cfg b) p m') : Takes cfg m [b] m' := by
  rintro s rfl hr
  rw [runProgram_stmtText_cons hwf, exec_of_byteStep (isByteOp_decodeByte _ _) hr hp h, andThen_next]
  exact runProgram_nil _

theorem Takes.cons {cfg : Config} (hwf : cfg.wf = true) {m n k : Message} {b : Byte} {bs : List Byte}
    (h₁ : Takes cfg m [b] n) (h₂ : Takes cfg n bs k) : Takes cfg m (b :: bs) k := h₁.append hwf h₂

/-- When each byte takes the record of the bytes before it to the record of one byte more, the whole string takes the
record of no bytes to its own. -/
theorem Takes.of_prefixes {cfg : Config} (hwf : cfg.wf = true) {after : List Byte → Message} {bs : List Byte}
    (h : ∀ pre, ∀ b ∈ bs, Takes cfg (after pre) [b] (after (pre ++ [b]))) : Takes cfg (after []) bs (after bs) := by
  induction bs using List.reverseRecOn with
  | nil => exact .nil cfg _
  | append_singleton bs b ih =>
    exact (ih fun pre c hc => h pre c (List.mem_append_left _ hc)).append hwf (h bs b (by simp))

/-- A string of discarded bytes changes nothing. -/
theorem Takes.of_discards {cfg : Config} (hwf : cfg.wf = true) {m : Message} {p : ParserState}
    (hp : m.parserState = p.code) {bs : List Byte} (h : ∀ b ∈ bs, Discards cfg m (decodeByte cfg b) p) :
    Takes cfg m bs m :=
  Takes.of_prefixes hwf (after := fun _ => m) fun _ b hb => .single hwf hp (.discard (h b hb))

/-! ### Garbage (R137) -/

/-- In READING_START every byte but START_BYTE is discarded. -/
theorem discards_readingStart {cfg : Config} {m : Message} {b : Byte} (hb : b ≠ cfg.startByte) :
    Discards cfg m (decodeByte cfg b) .readingStart := by
  obtain ⟨hstart, -⟩ | ⟨-, h⟩ | ⟨-, h⟩ | ⟨-, -, h⟩ | ⟨-, -, h⟩ := decodeByte_cases cfg b
  · exact absurd hstart hb
  · rw [h]; exact .inl rfl
  · rw [h]; exact nofun
  · rw [h]; exact .inl rfl
  · rw [h]; exact trivial

/-- START_BYTE in a blank record leaves the record of RESTART. -/
theorem takes_start_clearRecord {cfg : Config} (hwf : cfg.wf = true) :
    Takes cfg (clearRecord cfg) [cfg.startByte] (restart cfg) :=
  .single hwf (p := .readingStart) rfl (decodeByte_startByte cfg ▸ .start)

/-- Settles O50: in READING_START such bytes are discarded, and START_BYTE leaves the record of RESTART both after INIT
and in the middle of a frame. -/
theorem garbageLeavesNoTrace : Obligations.GarbageLeavesNoTrace := by
  constructor
  · intro s m bs hwf hr hp hbs
    have hdiscards : ∀ b ∈ bs, Discards s.cfg m (decodeByte s.cfg b) .readingStart := fun b hb =>
      discards_readingStart (ne_of_mem_of_not_mem hb hbs)
    rw [Takes.of_discards hwf (p := .readingStart) hp hdiscards s rfl hr, ← hr]
  · intro s t m xs hwf hresync h hr hmid
    have hcfg : t.cfg = s.cfg := runProgram_cfg hwf h
    obtain ⟨p, hp, hpmid⟩ := isMidFrame_of_code hmid
    have hcut : Takes s.cfg m [s.cfg.startByte] (restart s.cfg) :=
      .single hwf hp (decodeByte_startByte s.cfg ▸ .resync hpmid hresync)
    have hcutoff : runProgram (xs ++ [stmtStart s.cfg]) s = runProgram (stmtText [s.cfg.startByte]) t := by
      rw [runProgram_append hwf, h, andThen_next]
      rfl
    have hinit := takes_start_clearRecord hwf (s.setRecord (clearRecord s.cfg)) rfl rfl
    exact ⟨_, _, hcutoff.trans (hcut t hcfg hr), (runProgram_clear hwf (.inr rfl) _).trans hinit, rfl⟩

/-! ### Address sub-fields (R124) -/

/-- The value that content bytes leave in an address register that held `r`. -/
def addressAfter (r : Byte) (bs : List Byte) : Byte :=
  BitVec.ofNat 8 (r.toNat * 10 ^ (bs.filter isDigit).length + numeral (bs.filter isDigit))

@[simp] theorem addressAfter_nil (r : Byte) : addressAfter r [] = r := by
  simp [addressAfter, numeral]

theorem numeral_append_singleton (ds : List Byte) (d : Byte) :
    numeral (ds ++ [d]) = numeral ds * 10 + digitValue d := by
  simp [numeral]

/-- One more digit goes through ACC_ADDR, because reduction mod 256 commutes with * 10 and +. -/
theorem addressAfter_digit (r : Byte) (bs : List Byte) {b : Byte} (hb : isDigit b = true) :
    addressAfter r (bs ++ [b]) = accAddr (addressAfter r bs) b := by
  have hpow : r.toNat * 10 ^ ((bs.filter isDigit).length + 1) = r.toNat * 10 ^ (bs.filter isDigit).length * 10 :=
    (mul_assoc ..).symm
  apply BitVec.eq_of_toNat_eq
  simp only [addressAfter, accAddr, List.filter_append, List.filter_cons_of_pos hb, List.filter_nil,
    numeral_append_singleton, List.length_append, List.length_singleton, hpow, BitVec.toNat_ofNat, Nat.reducePow]
  omega

theorem addressAfter_other (r : Byte) (bs : List Byte) {b : Byte} (hb : isDigit b = false) :
    addressAfter r (bs ++ [b]) = addressAfter r bs := by
  simp [addressAfter, hb]

theorem cls_of_contentOnly {cfg : Config} {bs : List Byte} (hbs : contentOnly cfg bs = true) {b : Byte}
    (hb : b ∈ bs) : cls cfg b = .content := by
  simpa using List.all_eq_true.1 hbs b hb

/-- In an address sub-field digits go to the register that `set` writes, and other content is discarded. -/
theorem Takes.address {cfg : Config} (hwf : cfg.wf = true) {p : ParserState} {set : Byte → Message} {r : Byte}
    (hp : ∀ v, (set v).parserState = p.code)
    (hdigit : ∀ v b, ByteStep cfg (set v) (.pbDigit b) p (set (accAddr v b)))
    (hother : ∀ v b, Discards cfg (set v) (.pbOther b) p) {bs : List Byte} (hbs : contentOnly cfg bs = true) :
    Takes cfg (set r) bs (set (addressAfter r bs)) := by
  have hprefix : ∀ pre, ∀ b ∈ bs,
      Takes cfg (set (addressAfter r pre)) [b] (set (addressAfter r (pre ++ [b]))) := fun pre b hb => by
    have hcontent := cls_of_contentOnly hbs hb
    refine .single hwf (hp _) ?_
    cases hd : isDigit b with
    | true =>
      rw [decodeByte_digit hcontent hd, addressAfter_digit r pre hd]
      exact hdigit _ b
    | false =>
      rw [decodeByte_other hcontent hd, addressAfter_other r pre hd]
      exact .discard (hother _ b)
  simpa using Takes.of_prefixes hwf (after := fun pre => set (addressAfter r pre)) hprefix

theorem takes_source {cfg : Config} (hwf : cfg.wf = true) {m : Message} (hp : m.parserState = 2#3) {bs : List Byte}
    (hbs : contentOnly cfg bs = true) : Takes cfg m bs (m.setSource (addressAfter m.source bs)) :=
  .address hwf (p := .readingSource) (set := m.setSource) (fun _ => hp) (fun v b => .digitSource (m := m.setSource v) b)
    (fun _ _ => trivial) hbs

theorem takes_dest {cfg : Config} (hwf : cfg.wf = true) {m : Message} (hp : m.parserState = 3#3) {bs : List Byte}
    (hbs : contentOnly cfg bs = true) : Takes cfg m bs (m.setDest (addressAfter m.dest bs)) :=
  .address hwf (p := .readingDest) (set := m.setDest) (fun _ => hp) (fun v b => .digitDest (m := m.setDest v) b)
    (fun _ _ => trivial) hbs

/-- Settles O47: each digit goes through ACC_ADDR, and other content is discarded. -/
theorem addressDigitsFormDecimal : Obligations.AddressDigitsFormDecimal := by
  intro s m bs hwf hr hbs
  exact ⟨fun hp => takes_source hwf hp hbs s rfl hr, fun hp => takes_dest hwf hp hbs s rfl hr⟩

/-! ### Stored text (R135) -/

/-- A byte space after the bytes of a text are written one after the other from index `i` on. -/
def Memory.store (buf : Memory) (i : Nat) : List Byte → Memory
  | [] => buf
  | b :: bs => Memory.store (Memory.write buf i b) (i + 1) bs

@[simp] theorem Memory.store_nil (buf : Memory) (i : Nat) : Memory.store buf i [] = buf := rfl

theorem Memory.store_append_singleton (buf : Memory) (i : Nat) (bs : List Byte) (b : Byte) :
    Memory.store buf i (bs ++ [b]) = Memory.write (Memory.store buf i bs) (i + bs.length) b := by
  induction bs generalizing buf i with
  | nil => rfl
  | cons c bs ih =>
    rw [List.cons_append, Memory.store, ih, Memory.store, List.length_cons]
    congr 1
    omega

theorem Memory.store_wf {buf : Memory} (h : Memory.wf buf = true) (i : Nat) (bs : List Byte) :
    Memory.wf (Memory.store buf i bs) = true := by
  induction bs generalizing buf i with
  | nil => exact h
  | cons b bs ih => exact ih (Memory.write_wf h i b) (i + 1)

/-- A stored text is read back from where it was stored, and every other byte is as it was. -/
theorem Memory.read_store {buf : Memory} (h : Memory.wf buf = true) (i : Nat) (bs : List Byte) (a : Nat) :
    Memory.read (Memory.store buf i bs) a =
      if i ≤ a ∧ a < i + bs.length then bs.getD (a - i) 0#8 else Memory.read buf a := by
  induction bs generalizing buf i with
  | nil => simp
  | cons b bs ih =>
    rw [Memory.store, ih (Memory.write_wf h i b), Memory.write_reads h, List.length_cons]
    obtain hlt | rfl | hgt := lt_trichotomy a i
    · rw [if_neg (by omega), if_neg (by omega), if_neg (by omega)]
    · rw [if_neg (by omega), if_pos rfl, if_pos (by omega), Nat.sub_self]
      rfl
    · rw [if_neg (Nat.ne_of_gt hgt)]
      obtain ⟨k, rfl⟩ : ∃ k, a = i + 1 + k := Nat.exists_eq_add_of_le hgt
      have hk : i + 1 + k - i = k + 1 := by omega
      have hiff : (i ≤ i + 1 + k ∧ i + 1 + k < i + (bs.length + 1)) ↔
          (i + 1 ≤ i + 1 + k ∧ i + 1 + k < i + 1 + bs.length) := by omega
      simp only [hiff, hk, Nat.add_sub_cancel_left, List.getD_cons_succ]

/-- What content bytes leave of a space of capacity `cap` with the cursor at `i`: those beyond the capacity are
dropped. -/
def Memory.storeText (cap : Nat) (buf : Memory) (i : Nat) (bs : List Byte) : Memory :=
  Memory.store buf i (bs.take (cap - i))

/-- The cursor that content bytes leave in a space of capacity `cap`. -/
def cursorAfter (cap : Nat) (c : Byte) (bs : List Byte) : Byte := BitVec.ofNat 8 (min cap (c.toNat + bs.length))

@[simp] theorem Memory.storeText_nil (cap : Nat) (buf : Memory) (i : Nat) : Memory.storeText cap buf i [] = buf := by
  simp [Memory.storeText]

theorem cursorAfter_nil {cap : Nat} {c : Byte} (h : c.toNat ≤ cap) : cursorAfter cap c [] = c := by
  simp [cursorAfter, h]

theorem cursorAfter_toNat {cap : Nat} (hcap : cap ≤ 255) (c : Byte) (bs : List Byte) :
    (cursorAfter cap c bs).toNat = min cap (c.toNat + bs.length) := by
  rw [cursorAfter, BitVec.toNat_ofNat]
  exact Nat.mod_eq_of_lt (by omega)

/-- With room, one more byte is written at the cursor, which counts up. -/
theorem storeText_append_of_room {cap : Nat} (hcap : cap ≤ 255) {c : Byte} {pre : List Byte}
    (hroom : (cursorAfter cap c pre).toNat < cap) (buf : Memory) (b : Byte) :
    Memory.storeText cap buf c.toNat (pre ++ [b]) =
        Memory.write (Memory.storeText cap buf c.toNat pre) (cursorAfter cap c pre).toNat b ∧
      cursorAfter cap c (pre ++ [b]) = cursorAfter cap c pre + 1#8 := by
  have hcur := cursorAfter_toNat hcap c pre
  have hfit : c.toNat + pre.length < cap := by omega
  constructor
  · have hall : (pre ++ [b]).take (cap - c.toNat) = pre ++ [b] := List.take_of_length_le (by simp; omega)
    have hpre : pre.take (cap - c.toNat) = pre := List.take_of_length_le (by omega)
    rw [Memory.storeText, Memory.storeText, hall, hpre, Memory.store_append_singleton, hcur,
      Nat.min_eq_right hfit.le]
  · apply BitVec.eq_of_toNat_eq
    rw [counter_succ hroom hcap, hcur, cursorAfter_toNat hcap, List.length_append, List.length_singleton]
    omega

/-- Without room, one more byte is dropped. -/
theorem storeText_append_of_full {cap : Nat} (hcap : cap ≤ 255) {c : Byte} {pre : List Byte}
    (hfull : cap ≤ (cursorAfter cap c pre).toNat) (buf : Memory) (b : Byte) :
    Memory.storeText cap buf c.toNat (pre ++ [b]) = Memory.storeText cap buf c.toNat pre ∧
      cursorAfter cap c (pre ++ [b]) = cursorAfter cap c pre := by
  rw [cursorAfter_toNat hcap] at hfull
  constructor
  · rw [Memory.storeText, Memory.storeText, List.take_append_of_le_length (by omega)]
  · rw [cursorAfter, cursorAfter, List.length_append, Nat.min_eq_left (by omega), Nat.min_eq_left (by omega)]

/-- The byte at an index that content bytes have reached is the one that arrived there; the others are as they were. -/
theorem Memory.read_storeText {buf : Memory} (h : Memory.wf buf = true) (cap i : Nat) (bs : List Byte) (a : Nat) :
    Memory.read (Memory.storeText cap buf i bs) a =
      if i ≤ a ∧ a < min cap (i + bs.length) then bs.getD (a - i) 0#8 else Memory.read buf a := by
  have hiff : (i ≤ a ∧ a < i + (bs.take (cap - i)).length) ↔ (i ≤ a ∧ a < min cap (i + bs.length)) := by
    rw [List.length_take]
    omega
  rw [Memory.storeText, Memory.read_store h]
  simp only [hiff]
  split
  · rw [List.getD_eq_getElem?_getD, List.getElem?_take_of_lt (by omega), List.getD_eq_getElem?_getD]
  · rfl

/-- Text stored in a blank space is spelled there up to the capacity. -/
theorem Memory.storeText_spells (cap : Nat) (bs : List Byte) :
    Memory.Spells (Memory.storeText cap [] 0 bs) (bs.take cap) := by
  intro a
  rw [Memory.read_storeText Memory.wf_nil, Memory.read_nil]
  simp only [List.getD_eq_getElem?_getD, List.getElem?_take]
  by_cases hcap : a < cap
  · by_cases hlen : a < bs.length
    · simp [hcap, hlen]
    · simp [hcap, hlen]
  · simp [hcap]

/-- A space that spells a text without 0x00 has it as its text value (R53, R133). -/
theorem textValue_of_spells {buf : Memory} {bs : List Byte} {cap : Nat} (h : Memory.Spells buf bs)
    (hcap : bs.length ≤ cap) (hzero : 0#8 ∉ bs) : textValue buf cap = bs := by
  have hread {i : Nat} (hi : i < bs.length) : Memory.read buf i = bs[i] := by simp [h i, hi]
  have hlen : textLength buf cap = bs.length := by
    obtain hlt | heq | hgt := lt_trichotomy (textLength buf cap) bs.length
    · have hend := read_textLength_eq_zero (hlt.trans_le hcap)
      rw [hread hlt] at hend
      exact absurd (hend ▸ List.getElem_mem hlt) hzero
    · exact heq
    · exact absurd (by simp [h bs.length]) (read_ne_zero_of_lt_textLength hgt)
  refine List.ext_getElem? fun i => ?_
  obtain hi | hi := Nat.lt_or_ge i bs.length
  · rw [textValue_getElem? (hlen ▸ hi), hread hi, List.getElem?_eq_getElem hi]
  · rw [List.getElem?_eq_none (by simpa [hlen] using hi), List.getElem?_eq_none hi]

theorem textValue_storeText (cap : Nat) {bs : List Byte} (hzero : 0#8 ∉ bs) :
    textValue (Memory.storeText cap [] 0 bs) cap = bs.take cap :=
  textValue_of_spells (Memory.storeText_spells cap bs) (List.length_take_le cap bs) fun h =>
    hzero (List.mem_of_mem_take h)

theorem contentByte_decodeByte {cfg : Config} {b : Byte} (h : cls cfg b = .content) :
    contentByte (decodeByte cfg b) = some b := by
  rw [decodeByte_content h]
  split <;> rfl

/-! ### Content of the command and of a field (R122, R123, R135) -/

/-- The record after content bytes in READING_COMMAND. -/
def Message.withCommandText (cfg : Config) (m : Message) (bs : List Byte) : Message :=
  (m.setCommand (Memory.storeText cfg.commandLength m.command m.writeCounter.toNat bs)).setCounter
    (cursorAfter cfg.commandLength m.writeCounter bs)

/-- The record after content bytes in READING_FIELD, where the current slot held `old`. -/
def Message.withFieldText (cfg : Config) (m : Message) (old : Memory) (bs : List Byte) : Message :=
  (m.setField m.writeField.toNat (Memory.storeText cfg.fieldLength old m.writeCounter.toNat bs)).setCounter
    (cursorAfter cfg.fieldLength m.writeCounter bs)

theorem Message.withCommandText_nil {cfg : Config} {m : Message} (h : m.writeCounter.toNat ≤ cfg.commandLength) :
    m.withCommandText cfg [] = m := by
  rw [Message.withCommandText, Memory.storeText_nil, cursorAfter_nil h]
  rfl

theorem Message.withFieldText_nil {cfg : Config} {m : Message} {old : Memory}
    (hold : m.fields[m.writeField.toNat]? = some old) (h : m.writeCounter.toNat ≤ cfg.fieldLength) :
    m.withFieldText cfg old [] = m := by
  obtain ⟨hlt, hget⟩ := List.getElem?_eq_some_iff.1 hold
  have hset : m.fields.set m.writeField.toNat old = m.fields := hget ▸ List.set_getElem_self hlt
  rw [Message.withFieldText, Memory.storeText_nil, cursorAfter_nil h, Message.setField, hset]
  rfl

/-- ACC_CMD adds one byte to the text. -/
theorem accCommand_withCommandText {cfg : Config} (hcap : cfg.commandLength ≤ 255) (m : Message) (pre : List Byte)
    (b : Byte) : accCommand cfg (m.withCommandText cfg pre) b = m.withCommandText cfg (pre ++ [b]) := by
  obtain hroom | hfull := Nat.lt_or_ge (cursorAfter cfg.commandLength m.writeCounter pre).toNat cfg.commandLength
  · obtain ⟨hstore, hcursor⟩ := storeText_append_of_room hcap hroom m.command b
    rw [accCommand_room b hroom, Message.withCommandText, Message.withCommandText, hstore, hcursor]
    rfl
  · obtain ⟨hstore, hcursor⟩ := storeText_append_of_full hcap hfull m.command b
    rw [accCommand_full b hfull, Message.withCommandText, Message.withCommandText, hstore, hcursor]

/-- ACC_FIELD adds one byte to the text of its slot. -/
theorem accField_withFieldText {cfg : Config} (hcap : cfg.fieldLength ≤ 255) {m : Message}
    (hslot : m.writeField.toNat < m.fields.length) (old : Memory) (pre : List Byte) (b : Byte) :
    accField cfg (m.withFieldText cfg old pre) b = .ok (m.withFieldText cfg old (pre ++ [b])) := by
  obtain hroom | hfull := Nat.lt_or_ge (cursorAfter cfg.fieldLength m.writeCounter pre).toNat cfg.fieldLength
  · obtain ⟨hstore, hcursor⟩ := storeText_append_of_room hcap hroom old b
    have hget : (m.withFieldText cfg old pre).fields[(m.withFieldText cfg old pre).writeField.toNat]? =
        some (Memory.storeText cfg.fieldLength old m.writeCounter.toNat pre) := List.getElem?_set_self hslot
    rw [accField_room b hroom hget, Message.withFieldText, Message.withFieldText, hstore, hcursor]
    simp [Message.setField, Message.setCounter]
  · obtain ⟨hstore, hcursor⟩ := storeText_append_of_full hcap hfull old b
    rw [accField_full b hfull, Message.withFieldText, Message.withFieldText, hstore, hcursor]

theorem takes_commandText {cfg : Config} (hwf : cfg.wf = true) {m : Message} (hp : m.parserState = 1#3)
    (hcount : m.writeCounter.toNat ≤ cfg.commandLength) {bs : List Byte} (hbs : contentOnly cfg bs = true) :
    Takes cfg m bs (m.withCommandText cfg bs) := by
  obtain ⟨⟨-, hcap, -⟩, -, -⟩ := (Config.wf_iff cfg).1 hwf
  have hprefix : ∀ pre, ∀ b ∈ bs,
      Takes cfg (m.withCommandText cfg pre) [b] (m.withCommandText cfg (pre ++ [b])) := fun pre b hb => by
    have hcontent := contentByte_decodeByte (cls_of_contentOnly hbs hb)
    rw [← accCommand_withCommandText hcap]
    exact .single hwf (p := .readingCommand) hp (byteStep_accCommand hcontent cfg _)
  simpa only [Message.withCommandText_nil hcount] using Takes.of_prefixes hwf hprefix

theorem takes_fieldText {cfg : Config} (hwf : cfg.wf = true) {m : Message} {old : Memory} (hp : m.parserState = 4#3)
    (hold : m.fields[m.writeField.toNat]? = some old) (hcount : m.writeCounter.toNat ≤ cfg.fieldLength)
    {bs : List Byte} (hbs : contentOnly cfg bs = true) : Takes cfg m bs (m.withFieldText cfg old bs) := by
  obtain ⟨⟨-, -, -, hcap, -⟩, -, -⟩ := (Config.wf_iff cfg).1 hwf
  obtain ⟨hslot, -⟩ := List.getElem?_eq_some_iff.1 hold
  have hprefix : ∀ pre, ∀ b ∈ bs,
      Takes cfg (m.withFieldText cfg old pre) [b] (m.withFieldText cfg old (pre ++ [b])) := fun pre b hb => by
    have hcontent := contentByte_decodeByte (cls_of_contentOnly hbs hb)
    exact .single hwf (p := .readingField) hp (byteStep_accField hcontent (accField_withFieldText hcap hslot old pre b))
  simpa only [Message.withFieldText_nil hold hcount] using Takes.of_prefixes hwf hprefix

/-- Settles O48: ACC_CMD stores the text byte by byte up to the capacity. -/
theorem commandBytesAreTruncated : Obligations.CommandBytesAreTruncated := by
  intro s m bs hwf hr hp hcanonical hcount hbs
  refine ⟨_, takes_commandText hwf hp hcount hbs s rfl hr, Memory.read_storeText hcanonical _ _ bs, ?_⟩
  intro hzero hblank hbytes
  rw [hzero, hblank]
  exact textValue_storeText _ hbytes

/-- Settles O49: ACC_FIELD stores the text byte by byte up to the capacity. -/
theorem fieldBytesAreTruncated : Obligations.FieldBytesAreTruncated := by
  intro s m old bs hwf hr hp hold hcanonical hcount hbs
  refine ⟨_, takes_fieldText hwf hp hold hcount hbs s rfl hr, Memory.read_storeText hcanonical _ _ bs, ?_⟩
  intro hzero hblank hbytes
  rw [hzero, hblank]
  exact textValue_storeText _ hbytes

/-! ### The payload of a frame (R126, R136) -/

/-- The record `m` in READING_FIELD at slot `j`, with the given slots and cursor. -/
def Message.atSlot (m : Message) (slots : List Memory) (j : Nat) (c : Byte) : Message :=
  { m with parserState := 4#3, fields := slots, writeField := BitVec.ofNat 8 j, writeCounter := c }

/-- What a field group leaves in its slot. -/
def slotText (cfg : Config) (g : List Byte) : Memory := Memory.storeText cfg.fieldLength [] 0 g

theorem ofNat_toNat_of_lt {j n : Nat} (hj : j < n) (hn : n ≤ 256) : (BitVec.ofNat 8 j).toNat = j := by
  rw [BitVec.toNat_ofNat]
  exact Nat.mod_eq_of_lt (by omega)

theorem Frame.payload_cons (cfg : Config) (g : List Byte) {rest : List (List Byte)} (h : rest ≠ []) :
    Frame.payload cfg (g :: rest) = g ++ cfg.sepByte :: Frame.payload cfg rest := by
  cases rest with
  | nil => exact absurd rfl h
  | cons g' rest => rfl

/-- A payload is made of the bytes of its groups and of separators. -/
theorem Frame.mem_payload {cfg : Config} {gs : List (List Byte)} (hgs : ∀ g ∈ gs, contentOnly cfg g = true) {b : Byte}
    (hb : b ∈ Frame.payload cfg gs) : b = cfg.sepByte ∨ cls cfg b = .content := by
  induction gs with
  | nil => cases hb
  | cons g rest ih =>
    have hg := hgs g List.mem_cons_self
    obtain rfl | hrest := eq_or_ne rest []
    · exact .inr (cls_of_contentOnly hg hb)
    · rw [Frame.payload_cons cfg g hrest, List.mem_append, List.mem_cons] at hb
      obtain hb | hb | hb := hb
      · exact .inr (cls_of_contentOnly hg hb)
      · exact .inl hb
      · exact ih (fun g' hg' => hgs g' (List.mem_cons_of_mem g hg')) hb

/-- A group fills the slot at the cursor. -/
theorem takes_group {cfg : Config} (hwf : cfg.wf = true) (m : Message) {slots : List Memory} {j : Nat}
    (hj : j < cfg.numFields) (hslot : slots[j]? = some []) {g : List Byte} (hg : contentOnly cfg g = true) :
    Takes cfg (m.atSlot slots j 0#8) g
      (m.atSlot (slots.set j (slotText cfg g)) j (cursorAfter cfg.fieldLength 0#8 g)) := by
  obtain ⟨⟨-, -, -, -, -, hnum⟩, -, -⟩ := (Config.wf_iff cfg).1 hwf
  have hj' : (m.atSlot slots j 0#8).writeField.toNat = j := ofNat_toNat_of_lt hj hnum
  have hold : (m.atSlot slots j 0#8).fields[(m.atSlot slots j 0#8).writeField.toNat]? = some [] := by
    rw [hj']
    exact hslot
  have htakes := takes_fieldText hwf rfl hold (Nat.zero_le _) hg
  rw [Message.withFieldText, hj'] at htakes
  exact htakes

/-- A separator before the last slot goes on to the next slot. -/
theorem takes_nextSlot {cfg : Config} (hwf : cfg.wf = true) (m : Message) (slots : List Memory) {j : Nat} (c : Byte)
    (hj : j + 1 < cfg.numFields) :
    Takes cfg (m.atSlot slots j c) [cfg.sepByte] (m.atSlot slots (j + 1) 0#8) := by
  obtain ⟨⟨-, -, -, -, -, hnum⟩, -, -⟩ := (Config.wf_iff cfg).1 hwf
  have hj' : (BitVec.ofNat 8 j).toNat = j := ofNat_toNat_of_lt (by omega) hnum
  have hnext : BitVec.ofNat 8 j + 1#8 = BitVec.ofNat 8 (j + 1) := by rw [byte_succ_eq_ofNat, hj']
  have hlt : (m.atSlot slots j c).writeField.toNat < cfg.numFields - 1 := by
    rw [Message.atSlot, hj']
    omega
  have hstep := ByteStep.sepNextSlot hlt
  rw [← decodeByte_sepByte hwf] at hstep
  rw [Message.atSlot, Message.atSlot, ← hnext]
  exact .single hwf (p := .readingField) rfl hstep

/-- At the last slot a separator leaves no room. -/
theorem takes_overflow {cfg : Config} (hwf : cfg.wf = true) (m : Message) (slots : List Memory) (c : Byte) :
    Takes cfg (m.atSlot slots (cfg.numFields - 1) c) [cfg.sepByte]
      (m.atSlot slots (cfg.numFields - 1) (BitVec.ofNat 8 cfg.fieldLength)) := by
  obtain ⟨⟨-, -, -, -, hpos, hnum⟩, -, -⟩ := (Config.wf_iff cfg).1 hwf
  have hlast : (BitVec.ofNat 8 (cfg.numFields - 1)).toNat = cfg.numFields - 1 :=
    ofNat_toNat_of_lt (Nat.sub_one_lt_of_lt hpos) hnum
  refine .single hwf (p := .readingField) rfl ?_
  rw [decodeByte_sepByte hwf]
  exact .sepOverflow hlast.ge

/-- After the overflow the rest of the payload changes nothing. -/
theorem takes_after_overflow {cfg : Config} (hwf : cfg.wf = true) (m : Message) (slots : List Memory) {bs : List Byte}
    (hbs : ∀ b ∈ bs, b = cfg.sepByte ∨ cls cfg b = .content) :
    Takes cfg (m.atSlot slots (cfg.numFields - 1) (BitVec.ofNat 8 cfg.fieldLength)) bs
      (m.atSlot slots (cfg.numFields - 1) (BitVec.ofNat 8 cfg.fieldLength)) := by
  obtain ⟨⟨-, -, -, hcap, -, -⟩, -, -⟩ := (Config.wf_iff cfg).1 hwf
  have hfull : cfg.fieldLength ≤ (BitVec.ofNat 8 cfg.fieldLength).toNat :=
    (ofNat_toNat_of_lt (Nat.lt_succ_of_le hcap) le_rfl).ge
  refine Takes.of_prefixes hwf (after := fun _ => _) fun _ b hb => ?_
  obtain rfl | hcontent := hbs b hb
  · exact takes_overflow hwf m slots _
  · exact .single hwf (p := .readingField) rfl
      (byteStep_accField (contentByte_decodeByte hcontent) (accField_full b hfull))

/-- The payload from slot `done.length` on fills the slots that are left with its first groups, and drops the groups
for which there is no slot. -/
theorem takes_payload {cfg : Config} (hwf : cfg.wf = true) (m : Message) (done : List Memory) (gs : List (List Byte))
    (hdone : done.length < cfg.numFields) (hmany : cfg.numFields ≤ done.length + gs.length)
    (hgs : ∀ g ∈ gs, contentOnly cfg g = true) :
    ∃ c, Takes cfg (m.atSlot (done ++ List.replicate (cfg.numFields - done.length) []) done.length 0#8)
      (Frame.payload cfg gs)
      (m.atSlot (done ++ (gs.take (cfg.numFields - done.length)).map (slotText cfg)) (cfg.numFields - 1) c) := by
  induction gs generalizing done with
  | nil => exact absurd hmany (Nat.not_le.2 hdone)
  | cons g rest ih =>
    obtain ⟨k, hk⟩ : ∃ k, cfg.numFields - done.length = k + 1 := ⟨cfg.numFields - done.length - 1, by omega⟩
    have hgroup : Takes cfg (m.atSlot (done ++ List.replicate (k + 1) []) done.length 0#8) g
        (m.atSlot (done ++ slotText cfg g :: List.replicate k []) done.length (cursorAfter cfg.fieldLength 0#8 g)) := by
      have h := takes_group hwf m (slots := done ++ List.replicate (k + 1) []) hdone (by simp)
        (hgs g List.mem_cons_self)
      rwa [List.set_append_right _ _ le_rfl, Nat.sub_self, List.replicate_succ, List.set_cons_zero] at h
    have hrest : ∀ g' ∈ rest, contentOnly cfg g' = true := fun g' hg' => hgs g' (List.mem_cons_of_mem g hg')
    rw [hk, List.take_succ_cons, List.map_cons]
    obtain rfl | hmore := Nat.eq_zero_or_pos k
    · have hlast : done.length = cfg.numFields - 1 := by omega
      rw [hlast] at hgroup ⊢
      rw [List.take_zero, List.map_nil]
      obtain rfl | hne := eq_or_ne rest []
      · exact ⟨_, hgroup⟩
      · rw [Frame.payload_cons cfg g hne]
        exact ⟨_, hgroup.append hwf ((takes_overflow hwf m _ _).cons hwf
          (takes_after_overflow hwf m _ fun _ hb => Frame.mem_payload hrest hb))⟩
    · have hne : rest ≠ [] := by
        rintro rfl
        simp only [List.length_cons, List.length_nil] at hmany
        omega
      have hk' : cfg.numFields - (done ++ [slotText cfg g]).length = k := by simp; omega
      obtain ⟨c, hc⟩ := ih (done ++ [slotText cfg g]) (by simp; omega) (by simp at hmany ⊢; omega) hrest
      rw [hk', List.length_append, List.length_singleton, List.append_assoc, List.append_assoc,
        List.singleton_append, List.singleton_append] at hc
      rw [Frame.payload_cons cfg g hne]
      exact ⟨c, hgroup.append hwf ((takes_nextSlot hwf m _ _ (by omega)).cons hwf hc)⟩

/-! ### Whole frames (R134, R136, R140) -/

/-- SEP_BYTE makes the steps that the table has for it. -/
theorem Takes.sep {cfg : Config} (hwf : cfg.wf = true) {m m' : Message} {p : ParserState}
    (hp : m.parserState = p.code) (h : ByteStep cfg m .pbSep p m') : Takes cfg m [cfg.sepByte] m' :=
  .single hwf hp (decodeByte_sepByte hwf ▸ h)

/-- The message of a frame before its payload. -/
def headRecord (cfg : Config) (f : Frame) : Message where
  parserState := 3#3
  command := Memory.storeText cfg.commandLength [] 0 f.command
  source := addressAfter 0#8 f.source
  dest := addressAfter 0#8 f.dest
  fields := List.replicate cfg.numFields []
  writeCounter := 0#8
  writeField := 0#8

theorem Frame.grammatical_iff (cfg : Config) (f : Frame) :
    f.grammatical cfg = true ↔ contentOnly cfg f.command = true ∧ (∀ b ∈ f.source, isDigit b = true) ∧
      (∀ b ∈ f.dest, isDigit b = true) ∧ ∀ g ∈ f.fields, contentOnly cfg g = true := by
  simp only [Frame.grammatical, Bool.and_eq_true, List.all_eq_true, and_assoc]

theorem contentOnly_of_digits {cfg : Config} (hwf : cfg.wf = true) {ds : List Byte}
    (h : ∀ b ∈ ds, isDigit b = true) : contentOnly cfg ds = true :=
  List.all_eq_true.2 fun b hb => beq_iff_eq.2 (cls_digit hwf (h b hb))

/-- START_BYTE, the command and the two addresses lead from a blank record to READING_DEST. -/
theorem takes_head {cfg : Config} (hwf : cfg.wf = true) {f : Frame} (hf : f.grammatical cfg = true) :
    Takes cfg (clearRecord cfg)
      (cfg.startByte :: f.command ++ cfg.sepByte :: f.source ++ cfg.sepByte :: f.dest) (headRecord cfg f) := by
  obtain ⟨hcommand, hsource, hdest, -⟩ := (Frame.grammatical_iff cfg f).1 hf
  have h₁ := (takes_start_clearRecord hwf).cons hwf (takes_commandText hwf rfl (Nat.zero_le _) hcommand)
  have h₂ := h₁.append hwf ((Takes.sep hwf (p := .readingCommand) (by rfl) .sepCommand).cons hwf
    (takes_source hwf (by rfl) (contentOnly_of_digits hwf hsource)))
  exact h₂.append hwf ((Takes.sep hwf (p := .readingSource) (by rfl) .sepSource).cons hwf
    (takes_dest hwf (by rfl) (contentOnly_of_digits hwf hdest)))

/-- The message of a frame with as many groups as slots or more, before its END_BYTE. -/
def bodyRecord (cfg : Config) (f : Frame) (c : Byte) : Message :=
  (headRecord cfg f).atSlot ((f.fields.take cfg.numFields).map (slotText cfg)) (cfg.numFields - 1) c

/-- The bytes of a frame before its END_BYTE. -/
def Frame.body (cfg : Config) (f : Frame) : List Byte :=
  cfg.startByte :: f.command ++ cfg.sepByte :: f.source ++ cfg.sepByte :: f.dest ++
    cfg.sepByte :: Frame.payload cfg f.fields

theorem Frame.bytes_eq_body (cfg : Config) (f : Frame) : f.bytes cfg = f.body cfg ++ [cfg.endByte] := rfl

theorem takes_body {cfg : Config} (hwf : cfg.wf = true) {f : Frame} (hf : f.grammatical cfg = true)
    (hmany : cfg.numFields ≤ f.fields.length) :
    ∃ c, Takes cfg (clearRecord cfg) (f.body cfg) (bodyRecord cfg f c) := by
  obtain ⟨⟨-, -, -, -, hpos, -⟩, -, -⟩ := (Config.wf_iff cfg).1 hwf
  obtain ⟨-, -, -, hfields⟩ := (Frame.grammatical_iff cfg f).1 hf
  obtain ⟨c, hc⟩ := takes_payload hwf (headRecord cfg f) [] f.fields hpos (by simpa using hmany) hfields
  exact ⟨c, (takes_head hwf hf).append hwf ((Takes.sep hwf (p := .readingDest) rfl .sepDest).cons hwf hc)⟩

/-- END_BYTE completes the frame. -/
theorem takes_end {cfg : Config} (hwf : cfg.wf = true) (f : Frame) (c : Byte) :
    Takes cfg (bodyRecord cfg f c) [cfg.endByte] ((bodyRecord cfg f c).goto .done) := by
  obtain ⟨⟨-, -, -, -, hpos, hnum⟩, -, -⟩ := (Config.wf_iff cfg).1 hwf
  have hlast : (bodyRecord cfg f c).writeField.toNat = cfg.numFields - 1 :=
    ofNat_toNat_of_lt (Nat.sub_one_lt_of_lt hpos) hnum
  exact .single hwf (p := .readingField) rfl (decodeByte_endByte hwf ▸ .endLastSlot hlast)

/-- A byte string from the record that INIT leaves. -/
theorem Takes.run_clearRecord {s : State} {bs : List Byte} {m : Message}
    (h : Takes s.cfg (clearRecord s.cfg) bs m) :
    runProgram (stmtText bs) (s.setRecord (clearRecord s.cfg)) = .next { s with pending := [], record := some m } :=
  h _ rfl rfl

theorem isClearEdge_stmtByte (b : Byte) : isClearEdge (stmtByte b) = false := by
  simpa [isClearEdge, stmtByte, ctrlRst, ctrlInit] using And.intro (ctrlRst_byteWord b) (ctrlInit_byteWord b)

/-- Where a byte string does not complete the frame, no beginning of it does, because DONE is terminal. -/
theorem not_complete_of_prefix {s t : State} {m m' : Message} {pre bs : List Byte} (hs : s.Inv)
    (hr : s.record = some m) (hpre : pre <+: bs) (h : runProgram (stmtText bs) s = .next t) (hr' : t.record = some m')
    (hnot : completeFlag m' = false) :
    ∃ u n, runProgram (stmtText pre) s = .next u ∧ u.record = some n ∧ completeFlag n = false := by
  obtain ⟨rest, rfl⟩ := hpre
  obtain ⟨u, n, hu, hn, huinv⟩ := exists_runProgram_inv (stmtText pre) hs hr
  refine ⟨u, n, hu, hn, Bool.eq_false_iff.2 fun hcomplete => ?_⟩
  have hclear : ∀ x ∈ stmtText rest, isClearEdge x = false := fun x hx => by
    obtain ⟨b, -, rfl⟩ := List.mem_map.1 hx
    exact isClearEdge_stmtByte b
  obtain ⟨t', ht', hstay, -⟩ := doneIsTerminal u n _ huinv hn ((completeFlag_eq_true_iff n).1 hcomplete) hclear
  rw [stmtText, List.map_append, runProgram_append hs.config] at h
  obtain rfl := Host.Outcome.next.inj (h.symm.trans ((congrArg (andThen · _) hu).trans ht'))
  obtain rfl := Option.some.inj (hr'.symm.trans hstay)
  exact absurd hcomplete (Bool.eq_false_iff.1 hnot)

/-- No beginning of a frame that ends before its END_BYTE completes. -/
theorem not_complete_of_prefix_body {s : State} (hwf : s.cfg.wf = true) {f : Frame} (hf : f.grammatical s.cfg = true)
    (hmany : s.cfg.numFields ≤ f.fields.length) {pre : List Byte} (hpre : pre <+: f.body s.cfg) :
    ∃ u n, runProgram (stmtText pre) (s.setRecord (clearRecord s.cfg)) = .next u ∧ u.record = some n ∧
      completeFlag n = false := by
  obtain ⟨c, hc⟩ := takes_body hwf hf hmany
  exact not_complete_of_prefix (setRecord_clearRecord_inv hwf) rfl hpre (hc.run_clearRecord) rfl rfl

/-- A whole frame completes. -/
theorem takes_frame {cfg : Config} (hwf : cfg.wf = true) {f : Frame} (hf : f.grammatical cfg = true)
    (hmany : cfg.numFields ≤ f.fields.length) :
    ∃ c, Takes cfg (clearRecord cfg) (f.bytes cfg) ((bodyRecord cfg f c).goto .done) := by
  obtain ⟨c, hc⟩ := takes_body hwf hf hmany
  exact ⟨c, hc.append hwf (takes_end hwf f c)⟩

/-- An address that begins at 0 ends as the numeral of its digits (R55). -/
theorem addressAfter_zero {ds : List Byte} (h : ∀ b ∈ ds, isDigit b = true) :
    addressAfter 0#8 ds = BitVec.ofNat 8 (numeral ds) := by
  simp [addressAfter, List.filter_eq_self.2 h]

/-- The slots of a frame whose groups all fit show its groups. -/
theorem map_textValue_slotText {cfg : Config} {gs : List (List Byte)} (hfit : ∀ g ∈ gs, g.length ≤ cfg.fieldLength)
    (hzero : ∀ g ∈ gs, 0#8 ∉ g) :
    (gs.map (slotText cfg)).map (fun buf => textValue buf cfg.fieldLength) = gs := by
  rw [List.map_map]
  refine (List.map_congr_left fun g hg => ?_).trans (List.map_id gs)
  exact (textValue_storeText _ (hzero g hg)).trans (List.take_of_length_le (hfit g hg))

/-- Host programs that differ in IDLE edges only do the same after INIT. -/
theorem runProgram_init_filter {s : State} (hwf : s.cfg.wf = true) (xs : List Stimulus) :
    runProgram (stmtInit :: xs) s =
      runProgram (xs.filter fun x => !isIdleEdge x) (s.setRecord (clearRecord s.cfg)) := by
  rw [runProgram_clear hwf (.inr rfl)]
  exact runProgram_filter_idle (s := s.setRecord _) hwf (setRecord_clearRecord_inv hwf).legalCode xs

/-- What is presented before some point is, without the IDLE edges, a part of the frame from its beginning on. -/
theorem filter_take_eq_stmtText {xs : List Stimulus} {p : Stimulus → Bool} {bs : List Byte}
    (h : xs.filter p = stmtText bs) (n : Nat) :
    ∃ k, k ≤ bs.length ∧ (xs.take n).filter p = stmtText (bs.take k) ∧ ((xs.take n).filter p).length = k := by
  have hpre : (xs.take n).filter p <+: stmtText bs := h ▸ (List.take_prefix n xs).filter p
  have heq := List.prefix_iff_eq_take.1 hpre
  have hle := hpre.length_le
  rw [stmtText, List.length_map] at hle
  refine ⟨_, hle, ?_, rfl⟩
  rw [stmtText, List.map_take]
  exact heq

/-- Settles O52: the part before END_BYTE fills the record without completing it, so no beginning of it completes, and
END_BYTE completes. -/
theorem wellFormedFrameCompletesOnce : Obligations.WellFormedFrameCompletesOnce := by
  intro s f xs hwf hf hcommand hfields hsource hdest hxs
  obtain ⟨hgram, hcmdlen, hcount, hfit⟩ := (Frame.wf_iff s.cfg f).1 hf
  obtain ⟨-, hsrcdigits, hdstdigits, -⟩ := (Frame.grammatical_iff s.cfg f).1 hgram
  obtain ⟨c, hc⟩ := takes_frame hwf hgram hcount.ge
  have hwhole := hc.run_clearRecord
  refine ⟨fun n _ => ?_, ?_⟩
  · obtain ⟨k, hk, hsofar, hlen⟩ := filter_take_eq_stmtText hxs n
    rw [runProgram_init_filter hwf, hlen, hsofar]
    obtain rfl | hlt := hk.eq_or_lt
    · rw [List.take_length]
      exact ⟨_, _, hwhole, rfl, iff_of_true rfl rfl⟩
    · have hpre : (f.bytes s.cfg).take k <+: f.body s.cfg := by
        rw [Frame.bytes_eq_body, List.length_append, List.length_singleton] at hlt
        rw [Frame.bytes_eq_body, List.take_append_of_le_length (Nat.le_of_lt_succ hlt)]
        exact List.take_prefix k _
      obtain ⟨u, m, hu, hm, hnot⟩ := not_complete_of_prefix_body hwf hgram hcount.ge hpre
      exact ⟨u, m, hu, hm, iff_of_false (Bool.eq_false_iff.1 hnot) hlt.ne⟩
  · rw [runProgram_init_filter hwf, hxs]
    refine ⟨_, _, hwhole, rfl, ?_, ?_, ?_, ?_⟩
    · exact (textValue_storeText _ hcommand).trans (List.take_of_length_le hcmdlen)
    · change (addressAfter 0#8 f.source).toNat = _
      rw [addressAfter_zero hsrcdigits]
      exact ofNat_toNat_of_lt (Nat.lt_succ_of_le hsource) le_rfl
    · change (addressAfter 0#8 f.dest).toNat = _
      rw [addressAfter_zero hdstdigits]
      exact ofNat_toNat_of_lt (Nat.lt_succ_of_le hdest) le_rfl
    · change ((f.fields.take s.cfg.numFields).map (slotText s.cfg)).map _ = _
      rw [List.take_of_length_le hcount.le]
      exact map_textValue_slotText hfit hfields

/-- Settles O53: the groups without a slot leave the record as it is, and END_BYTE completes. -/
theorem extraFieldsAreDiscarded : Obligations.ExtraFieldsAreDiscarded := by
  intro s f hwf hgram hmore
  obtain ⟨-, hsrcdigits, hdstdigits, -⟩ := (Frame.grammatical_iff s.cfg f).1 hgram
  have hdrop : (stmtFrame s.cfg f).dropLast = stmtText (f.body s.cfg) := by
    rw [stmtFrame, Frame.bytes_eq_body, stmtText, List.map_append]
    exact List.dropLast_concat
  obtain ⟨c, hc⟩ := takes_frame hwf hgram hmore.le
  rw [runProgram_clear hwf (.inr rfl), hdrop, runProgram_clear hwf (.inr rfl)]
  refine ⟨not_complete_of_prefix_body hwf hgram hmore.le List.prefix_rfl,
    _, _, hc.run_clearRecord, rfl, rfl, ?_, Memory.storeText_spells _ _, addressAfter_zero hsrcdigits,
    addressAfter_zero hdstdigits, fun j buf g hbuf hg => ?_⟩
  · change ((f.fields.take s.cfg.numFields).map (slotText s.cfg)).length = _
    rw [List.length_map, List.length_take, Nat.min_eq_left hmore.le]
  · change ((f.fields.take s.cfg.numFields).map (slotText s.cfg))[j]? = some buf at hbuf
    obtain ⟨g', hg', rfl⟩ := by simpa only [List.getElem?_map, Option.map_eq_some_iff] using hbuf
    rw [List.getElem?_take, Option.ite_none_right_eq_some, hg] at hg'
    obtain rfl : g = g' := Option.some.inj hg'.2
    exact Memory.storeText_spells _ _

/-- Settles O54: START_BYTE and SEP_BYTE move the parser state of a blank record and write nothing else into it. -/
theorem emptyCommandContinues : Obligations.EmptyCommandContinues := by
  intro s hwf
  have htakes := (takes_start_clearRecord hwf).cons hwf (Takes.sep hwf (p := .readingCommand) rfl .sepCommand)
  refine ⟨_, _, (runProgram_clear hwf (.inr rfl) _).trans (htakes.run_clearRecord), rfl, ?_,
    textLengthOut_nil _, rfl, clearRecord_empty s.cfg⟩
  exact List.eq_nil_of_length_eq_zero ((textValue_length _ _).trans (textLength_nil _))

end Sys2Proof.Machine

/-! PROOFS. The statements of 42_readout.md: what each read port shows in the six states (R160 to R166). -/

namespace Sys2Proof.Machine

/-! ### A read in a state with a legal code (R166) -/

/-- The codes up to 5 are those of the six parser states (R22). -/
theorem ParserState.exists_eq_code {c : BitVec 3} (h : c.toNat ≤ 5) : ∃ p : ParserState, c = p.code := by
  have hcode : ParserState.ofCode c ≠ none := by
    rw [Ne, ParserState.ofCode_eq_none_iff]
    exact Nat.not_lt.2 h
  obtain ⟨p, hp⟩ := Option.ne_none_iff_exists'.1 hcode
  exact ⟨p, (ParserState.code_of_ofCode hp).symm⟩

/-- In each of the six states a read shows its port and changes nothing else. -/
theorem readPort_of_legal {s : State} {m : Message} {port : Message → Except Fault Observation} {o : Observation}
    (hr : s.record = some m) (hlegal : m.parserState.toNat ≤ 5) (ho : port m = .ok o) :
    readPort s port = .next { s with observed := some o } := by
  obtain ⟨p, hp⟩ := ParserState.exists_eq_code hlegal
  exact (readPort_eq_next_iff _ _ _).2 ⟨p, m, o, hr, hp, ho, rfl⟩

/-! ### What the ports show (R160 to R162, R165) -/

/-- The field port at a slot that is there (R160). -/
theorem fieldPort_of_slot {cfg : Config} {sel : Byte} {m : Message} {buf : Memory} (h : sel.toNat < cfg.numFields)
    (hbuf : m.fields[sel.toNat]? = some buf) :
    fieldPort cfg sel m =
      .ok (.field false (textLengthOut buf cfg.fieldLength) (spaceBytes buf cfg.fieldLength)) := by
  simp [fieldPort, rdErrFlag, h, hbuf]

/-- The field port from NUM_FIELDS on, whatever the record (R161). -/
theorem fieldPort_of_le {cfg : Config} {sel : Byte} (h : cfg.numFields ≤ sel.toNat) (m : Message) :
    fieldPort cfg sel m = .ok (.field true 0#8 (List.replicate cfg.fieldLength 0#8)) :=
  if_pos (decide_eq_true h)

/-- The bus of a space shows its bytes in their lanes (R54). -/
theorem shownOn_spaceBytes (buf : Memory) (cap : Nat) : Memory.ShownOn buf cap (spaceBytes buf cap) :=
  ⟨spaceBytes_length buf cap, fun _ => spaceBytes_getElem? buf⟩

/-- `complete` is 1 exactly in DONE (R33). -/
theorem completeFlag_eq_decide (m : Message) : completeFlag m = decide (m.parserState = 5#3) := by
  rw [Bool.eq_iff_iff, completeFlag_eq_true_iff, decide_eq_true_iff]

/-! ### The statements -/

/-- Settles O25: an in-range read shows the slot's bus and text length. -/
theorem rdFieldShowsSlot : Obligations.RdFieldShowsSlot := by
  intro s m sel buf hr hlegal hsel hbuf
  have hexec := readPort_of_legal (port := fieldPort s.cfg sel) hr hlegal (fieldPort_of_slot hsel hbuf)
  refine ⟨⟨textLength buf s.cfg.fieldLength, spaceBytes buf s.cfg.fieldLength, hexec,
    hasTextLength_textLength _ _, shownOn_spaceBytes _ _⟩, fun hwf => ?_⟩
  rw [decode_read hwf, decodeSelect_of_lt hsel]

/-- Settles O26: from NUM_FIELDS on the port shows the error and an empty view, and the select stands for
RD_FIELD_OOR. -/
theorem rdFieldOorShowsError : Obligations.RdFieldOorShowsError := by
  intro s m sel hr hlegal hsel
  refine ⟨readPort_of_legal (port := fieldPort s.cfg sel) hr hlegal (fieldPort_of_le hsel m), fun hwf => ?_⟩
  rw [decode_read hwf, decodeSelect_of_le hsel]

/-- Settles O27: the command port shows the bus and text length of the command space. -/
theorem rdCommandShowsCommand : Obligations.RdCommandShowsCommand := by
  intro s m hr hlegal
  have hexec := readPort_of_legal (port := fun m => .ok (commandPort s.cfg m)) hr hlegal rfl
  exact ⟨textLength m.command s.cfg.commandLength, spaceBytes m.command s.cfg.commandLength, hexec,
    hasTextLength_textLength _ _, shownOn_spaceBytes _ _⟩

/-- Settles O28: the source port shows the register as it stands. -/
theorem rdSourceShowsSource : Obligations.RdSourceShowsSource := fun _ _ hr hlegal =>
  readPort_of_legal (port := fun m => .ok (.source m.source)) hr hlegal rfl

/-- Settles O29: the destination port shows the register as it stands. -/
theorem rdDestShowsDest : Obligations.RdDestShowsDest := fun _ _ hr hlegal =>
  readPort_of_legal (port := fun m => .ok (.dest m.dest)) hr hlegal rfl

/-- Settles O30: the status ports show the code, both counters, and `complete` as the test of the code for
DONE. -/
theorem rdStatusShowsState : Obligations.RdStatusShowsState := by
  intro s m hr hlegal
  rw [← completeFlag_eq_decide]
  exact readPort_of_legal (port := fun m => .ok (statusPort m)) hr hlegal rfl

end Sys2Proof.Machine

/-! PROOFS. The statement of 60_exceptions.md: a step is refused for its configuration alone (R204 with R11 and
R12). -/

namespace Sys2Proof.Machine

/-! ### The admitted configurations, byte by byte (R12) -/

/-- A byte is no digit exactly when it lies below 0x30 or above 0x39 (R75). -/
theorem isDigit_eq_false_iff (b : Byte) : isDigit b = false ↔ b.toNat < 0x30 ∨ 0x39 < b.toNat := by
  rw [← Bool.not_eq_true, isDigit_eq_true_iff]
  omega

/-- That no marker is a digit, in one condition on the three of them. -/
theorem forall_marker_not_digit_iff (cfg : Config) :
    (∀ b : Byte, b = cfg.startByte ∨ b = cfg.sepByte ∨ b = cfg.endByte → b.toNat < 0x30 ∨ 0x39 < b.toNat) ↔
      isDigit cfg.startByte = false ∧ isDigit cfg.sepByte = false ∧ isDigit cfg.endByte = false := by
  simp only [← isDigit_eq_false_iff, forall_eq_or_imp, forall_eq]

/-! ### Refusals (R72, R204) -/

/-- A read operation is never refused. -/
theorem readPort_ne_refused (s : State) (port : Message → Except Fault Observation) (r : Refusal) :
    readPort s port ≠ .refused r := by
  unfold readPort
  repeat' split
  all_goals simp

/-- IDLE is never refused. -/
theorem execIdle_ne_refused (s : State) (r : Refusal) : execIdle s ≠ .refused r := by
  unfold execIdle
  split <;> simp

/-- No operation is refused: it has a next state or stops with a fault. -/
theorem exec_ne_refused (i : Instr) (s : State) (r : Refusal) : exec i s ≠ .refused r := by
  obtain rfl | rfl | rfl | hi | hi := instr_kinds i
  · simp [exec_reset]
  · simp [exec_init]
  · exact execIdle_ne_refused s r
  · obtain ⟨rule, hrule⟩ := exec_eq_consume_of_isByteOp hi s
    exact hrule ▸ consume_ne_refused s rule r
  · obtain ⟨port, hport⟩ := exec_eq_readPort_of_isReadOp hi s
    exact hport ▸ readPort_ne_refused s port r

/-- The check of the configuration comes before the decoder looks at what the host presents. -/
theorem decode_of_not_wf {cfg : Config} (h : ¬ cfg.wf = true) (x : Stimulus) :
    decode cfg x = .error .illFormedConfig := if_neg h

/-- The refusal of a step depends on nothing of the state but its configuration. -/
theorem step_eq_refused_iff (s : State) : step s = .refused .illFormedConfig ↔ ¬ s.cfg.wf = true := by
  constructor
  · intro h hwf
    obtain ⟨i, hi⟩ := exists_decode hwf s.fetch
    exact exec_ne_refused i s.advance _ ((step_of_decode hi).symm.trans h)
  · intro hwf
    rw [step, decode_of_not_wf hwf]

/-! ### The statement -/

/-- Settles O7: a step is refused exactly for a configuration that is not well-formed, and well-formedness is the
bounds of R11 and the marker rules of R12. -/
theorem illFormedConfigurationRefused : Obligations.IllFormedConfigurationRefused := by
  intro s
  rw [step_eq_refused_iff, Config.wf_iff, forall_marker_not_digit_iff]
  simp only [and_assoc]

end Sys2Proof.Machine

/-! PROOFS. The statements of 70_reset_and_hazards.md: RESET (R220), the state after it (R34), and what the host sees
before and after an edge with INIT (R225). -/

namespace Sys2Proof.Machine

/-! ### RESET (R220) -/

theorem inReady_eq_false_of_rst {w : ControlWord} (h : ctrlRst w = true) : inReady w = false := by
  simp [inReady, h]

/-- Nothing is consumed while `in_ready` is 0 (R102). -/
theorem consumedByte_eq_none_of_not_inReady {w : ControlWord} (h : inReady w = false) : consumedByte w = none := by
  simp [consumedByte, h]

/-- Settles O12: RESET writes `clearRecord`, as INIT does, and `rst` alone selects it. -/
theorem resetPerformsInitWrites : Obligations.ResetPerformsInitWrites := by
  intro s
  refine ⟨(exec_reset s).trans (exec_init s).symm,
    ⟨clearRecord s.cfg, exec_reset s, clearRecord_empty s.cfg, completeFlag_clearRecord s.cfg,
      exec_reset (s.setRecord (clearRecord s.cfg))⟩, fun w hw => ?_⟩
  have hrst : ctrlRst w = true := (and_resetMask_iff w).1 hw
  have hready : inReady w = false := inReady_eq_false_of_rst hrst
  refine ⟨hready, consumedByte_eq_none_of_not_inReady hready, fun hwf => ?_⟩
  rw [decode_edge hwf, decodeWord_of_rst hrst]

/-- Settles O13: RESET puts the record of R34 into the powered-up machine and leaves its other fields. -/
theorem resetStateFollowsPowerUp : Obligations.ResetStateFollowsPowerUp := by
  unfold Obligations.ResetStateFollowsPowerUp
  rw [exec_reset, clearRecord_eq_fresh]
  rfl

/-! ### A look at a port between two edges (R225) -/

/-- What the host presents to look at a port, and what that port shows of the record `m` (R160 to R165). -/
inductive Shows (cfg : Config) (m : Message) : Stimulus → Observation → Prop where
  | command : Shows cfg m (.port .command) (commandPort cfg m)
  | source : Shows cfg m (.port .source) (.source m.source)
  | dest : Shows cfg m (.port .dest) (.dest m.dest)
  | status : Shows cfg m (.port .status) (statusPort m)
  | field {sel : Byte} {o : Observation} (h : fieldPort cfg sel m = .ok o) : Shows cfg m (.read sel) o

/-- On either side of NUM_FIELDS a select reads the field port. -/
theorem exec_decodeSelect (cfg : Config) (sel : Byte) (s : State) :
    exec (decodeSelect cfg sel) s = readPort s (fieldPort s.cfg sel) := by
  obtain h | h := Nat.lt_or_ge sel.toNat cfg.numFields
  · rw [decodeSelect_of_lt h]
    rfl
  · rw [decodeSelect_of_le h]
    rfl

/-- A look decodes to an operation that puts what the port shows into the host's view. -/
theorem Shows.exists_exec {s : State} {m : Message} {x : Stimulus} {o : Observation} (h : Shows s.cfg m x o)
    (hwf : s.cfg.wf = true) (hr : s.record = some m) (hlegal : m.parserState.toNat ≤ 5) :
    ∃ i, decode s.cfg x = .ok i ∧ exec i s = .next (s.observe o) := by
  cases h with
  | command =>
    exact ⟨_, decode_port hwf _, readPort_of_legal (port := fun m => .ok (commandPort s.cfg m)) hr hlegal rfl⟩
  | source => exact ⟨_, decode_port hwf _, rdSourceShowsSource s m hr hlegal⟩
  | dest => exact ⟨_, decode_port hwf _, rdDestShowsDest s m hr hlegal⟩
  | status => exact ⟨_, decode_port hwf _, readPort_of_legal (port := fun m => .ok (statusPort m)) hr hlegal rfl⟩
  | field ho => exact ⟨_, decode_read hwf _, (exec_decodeSelect _ _ s).trans (readPort_of_legal hr hlegal ho)⟩

/-- A host program that begins with a look goes on from the same record, with what the port shows in the view. -/
theorem runProgram_look {s : State} {m : Message} {x : Stimulus} {o : Observation} (h : Shows s.cfg m x o)
    (hwf : s.cfg.wf = true) (hr : s.record = some m) (hlegal : m.parserState.toNat ≤ 5) (xs : List Stimulus) :
    runProgram (x :: xs) s = runProgram xs (s.observe o) := by
  obtain ⟨i, hdecode, hexec⟩ := h.exists_exec hwf hr hlegal
  rw [runProgram_cons hdecode, hexec, andThen_next]

/-- A look before the edge of INIT shows the old record, and the edge leaves it in the view. -/
theorem Shows.look_then_init {s : State} {m : Message} {x : Stimulus} {o : Observation} (h : Shows s.cfg m x o)
    (hs : s.Inv) (hr : s.record = some m) :
    ∃ t, runProgram [x, stmtInit] s = .next t ∧ t.observed = some o := by
  have hlegal : m.parserState.toNat ≤ 5 := hs.legalCode m hr
  have hwf : (s.observe o).cfg.wf = true := hs.config
  rw [runProgram_look h hs.config hr hlegal, runProgram_clear hwf (.inr rfl), runProgram_nil]
  exact ⟨_, rfl, rfl⟩

/-- A look after the edge of INIT shows the cleared record. -/
theorem Shows.init_then_look {s : State} {x : Stimulus} {o : Observation} (h : Shows s.cfg (clearRecord s.cfg) x o)
    (hwf : s.cfg.wf = true) : ∃ t, runProgram [stmtInit, x] s = .next t ∧ t.observed = some o := by
  have hlegal : (clearRecord s.cfg).parserState.toNat ≤ 5 := ParserState.code_le .readingStart
  rw [runProgram_clear hwf (.inr rfl), runProgram_look (s := s.setRecord _) h hwf rfl hlegal, runProgram_nil]
  exact ⟨_, rfl, rfl⟩

/-- The field port of the cleared record, on either side of NUM_FIELDS (R34, R161). -/
theorem fieldPort_clearRecord_eq (cfg : Config) (sel : Byte) :
    fieldPort cfg sel (clearRecord cfg) =
      .ok (.field (decide (cfg.numFields ≤ sel.toNat)) 0#8 (List.replicate cfg.fieldLength 0#8)) := by
  obtain h | h := Nat.lt_or_ge sel.toNat cfg.numFields
  · rw [fieldPort_clearRecord h, decide_eq_false (Nat.not_le.2 h)]
  · rw [fieldPort_of_le h, decide_eq_true h]

/-- Settles O32: each port in turn, of the old record before the edge and of the cleared one after it. -/
theorem readsShowOldMessageUntilInitEdge : Obligations.ReadsShowOldMessageUntilInitEdge := by
  intro s m hs hr
  have hcommand : Shows s.cfg (clearRecord s.cfg) (.port .command)
      (.command 0#8 (List.replicate s.cfg.commandLength 0#8)) := commandPort_clearRecord s.cfg ▸ .command
  refine ⟨Shows.command.look_then_init hs hr, Shows.source.look_then_init hs hr, Shows.dest.look_then_init hs hr,
    Shows.status.look_then_init hs hr, fun sel => ?_, hcommand.init_then_look hs.config,
    Shows.source.init_then_look hs.config, Shows.dest.init_then_look hs.config,
    Shows.status.init_then_look hs.config,
    fun sel => (Shows.field (fieldPort_clearRecord_eq s.cfg sel)).init_then_look hs.config⟩
  obtain ⟨o, ho⟩ := (hs.record m hr).exists_fieldPort sel
  obtain ⟨t, hrun, hobs⟩ := (Shows.field ho).look_then_init hs hr
  exact ⟨t, o, hrun, ho, hobs⟩

end Sys2Proof.Machine
